-- ==== Sys2Proof/Word.lean ====
section
/-! DEFINITION. The value types of the block and the closed sets of names its commands are made of. -/

namespace Sys2Proof

/-- A 256-bit unsigned value: bit `i` has weight `2^i` (R11). Every bit pattern is a valid value (R26). -/
abbrev Word := BitVec 256

/-- A 128-bit limb, one half of a `Word` (R10, R16). -/
abbrev Limb := BitVec 128

/-- Half a limb: the operand width of the native multiplier (R10, R130). -/
abbrev HalfLimb := BitVec 64

/-- A shift count, `0..255`, never reduced (R62). -/
abbrev Count := BitVec 8

/-- The command word `CMD[15:0]` (R60). -/
abbrev CmdWord := BitVec 16

/-- The 2-bit response status (R23, R180). -/
abbrev Status := BitVec 2

/-- The eight operations of the opcode map (R63). -/
inductive Op where
  | add | sub | neg | shl | shr | mul | eq | ltu
deriving DecidableEq, Repr

/-- The operand shapes of R61. -/
inductive Shape where
  | binary | unary | shift
deriving DecidableEq, Repr

/-- Source of operand A: the field `SA` (R24, R60). -/
inductive SrcA where
  | pa | acc
deriving DecidableEq, Repr

/-- Source of operand B: the field `SB` (R24, R60). -/
inductive SrcB where
  | pb | acc
deriving DecidableEq, Repr

end Sys2Proof
end

