-- ==== Sys2Proof/Config.lean ====
section
/-! DEFINITION. What an integration of the block fixes. The widths of R10 are fixed by the spec and stand in Word.lean. -/

namespace Sys2Proof

/-- `LATENCY` (R10, R206, U11): the time from accepting a command to its response, which may differ by opcode.
The spec leaves it open and "no rule of this spec depends on it": it has no body here and nothing reads it (log entry 6). -/
opaque Config.latency : Op → Nat

end Sys2Proof
end

