-- ==== Sys2Proof/Syntax.lean ====
section
/-! DEFINITION. The commands as syntax: one constructor per row of spec/opcode_table.json (R61, R63). -/

namespace Sys2Proof

/-- A legal command word, its fields turned into data. Each constructor carries exactly the fields its
shape uses (R61); no command has a destination field, since every command writes `ACC`. -/
inductive Instr where
  /-- `ADD <a>, <b>` (R80) -/
  | add (a : SrcA) (b : SrcB)
  /-- `SUB <a>, <b>` (R84) -/
  | sub (a : SrcA) (b : SrcB)
  /-- `NEG <a>` (R88) -/
  | neg (a : SrcA)
  /-- `SHL <a>, #<n>` (R113) -/
  | shl (a : SrcA) (n : Count)
  /-- `SHR <a>, #<n>` (R115) -/
  | shr (a : SrcA) (n : Count)
  /-- `MUL <a>, <b>` (R138) -/
  | mul (a : SrcA) (b : SrcB)
  /-- `EQ <a>, <b>` (R170) -/
  | eq (a : SrcA) (b : SrcB)
  /-- `LTU <a>, <b>` (R172) -/
  | ltu (a : SrcA) (b : SrcB)
deriving DecidableEq, Repr

end Sys2Proof
end

