-- ==== Sys2Proof/WellFormed.lean ====
section
/-! DEFINITION. Which command lines are well formed (R61, R70): a line names an operation and operands that
may or may not fit its shape; the checks below say when they do, and `toInstr?` reads a line that passes them. -/

namespace Sys2Proof

/-- The operand names of the assembler syntax (R70). -/
inductive OperandName where
  | pa | pb | acc
deriving DecidableEq, Repr

/-- A command line before any check: an operation, its first operand, and the second operand and count
it was written with, if any. The count is an integer of any size. -/
structure AsmLine where
  op : Op
  a : OperandName
  b : Option OperandName
  count : Option Nat
deriving DecidableEq, Repr

/-- The shape of each operation (R61). -/
def Op.shape : Op → Shape
  | .add => .binary
  | .sub => .binary
  | .neg => .unary
  | .shl => .shift
  | .shr => .shift
  | .mul => .binary
  | .eq => .binary
  | .ltu => .binary

/-- `<a>` is `PA` or `ACC` (R70). -/
def OperandName.srcA? : OperandName → Option SrcA
  | .pa => some .pa
  | .pb => none
  | .acc => some .acc

/-- `<b>` is `PB` or `ACC` (R70). -/
def OperandName.srcB? : OperandName → Option SrcB
  | .pa => none
  | .pb => some .pb
  | .acc => some .acc

/-- Check: the first operand is one an operand A may be. -/
def AsmLine.firstOperandFits (l : AsmLine) : Bool := l.a.srcA?.isSome

/-- Check: a second operand stands exactly where the shape reads one, and is one an operand B may be. -/
def AsmLine.secondOperandFits (l : AsmLine) : Bool :=
  match l.op.shape, l.b with
  | .binary, some b => b.srcB?.isSome
  | .binary, none => false
  | .unary, b => b.isNone
  | .shift, b => b.isNone

/-- Check: a count stands exactly where the shape has one, and is in `0..255` (R62, R70). -/
def AsmLine.countFits (l : AsmLine) : Bool :=
  match l.op.shape, l.count with
  | .shift, some n => decide (n ≤ 255)
  | .shift, none => false
  | .binary, n => n.isNone
  | .unary, n => n.isNone

/-- A line passes every check. -/
def AsmLine.wellFormed (l : AsmLine) : Bool :=
  l.firstOperandFits && l.secondOperandFits && l.countFits

/-- The command a well-formed line stands for; a line that fails a check is refused, and a count outside
`0..255` is not reduced (R70). -/
def AsmLine.toInstr? (l : AsmLine) : Option Instr :=
  if l.wellFormed then
    match l.op, l.a.srcA?, l.b.bind OperandName.srcB?, l.count with
    | .add, some a, some b, _ => some (.add a b)
    | .sub, some a, some b, _ => some (.sub a b)
    | .neg, some a, _, _ => some (.neg a)
    | .shl, some a, _, some n => some (.shl a (BitVec.ofNat 8 n))
    | .shr, some a, _, some n => some (.shr a (BitVec.ofNat 8 n))
    | .mul, some a, some b, _ => some (.mul a b)
    | .eq, some a, some b, _ => some (.eq a b)
    | .ltu, some a, some b, _ => some (.ltu a b)
    | _, _, _, _ => none
  else none

/-- How `<a>` is written. -/
def SrcA.name : SrcA → OperandName
  | .pa => .pa
  | .acc => .acc

/-- How `<b>` is written. -/
def SrcB.name : SrcB → OperandName
  | .pb => .pb
  | .acc => .acc

/-- The line that writes a command (R70). -/
def Instr.toLine : Instr → AsmLine
  | .add a b => ⟨.add, a.name, some b.name, none⟩
  | .sub a b => ⟨.sub, a.name, some b.name, none⟩
  | .neg a => ⟨.neg, a.name, none, none⟩
  | .shl a n => ⟨.shl, a.name, none, some n.toNat⟩
  | .shr a n => ⟨.shr, a.name, none, some n.toNat⟩
  | .mul a b => ⟨.mul, a.name, some b.name, none⟩
  | .eq a b => ⟨.eq, a.name, some b.name, none⟩
  | .ltu a b => ⟨.ltu, a.name, some b.name, none⟩

/-- A command is well formed when its line is. The types of `Instr` admit no other, which
`Sys2Proof.Laws.WellFormed` proves command by command. -/
def Instr.wellFormed (i : Instr) : Bool := i.toLine.wellFormed

end Sys2Proof
end

