-- ==== Sys2Proof/Decode.lean ====
section
/-! DEFINITION. The command word: its fields, the opcode map, the decoder (total on all 65536 words), the
encoder, and the opcode table (R60 to R72). -/

namespace Sys2Proof

/-- The command completed (R180). -/
def Status.ok : Status := 0b00#2

/-- Reserved opcode: `ILLEGAL_OPCODE` (R66, R180). -/
def Status.illegalOpcode : Status := 0b01#2

/-- Reserved field: `RESERVED_FIELD` (R67, R180). -/
def Status.reservedField : Status := 0b10#2

/-- `OP = CMD[3:0]` (R60). -/
def cmdOp (w : CmdWord) : BitVec 4 := w.extractLsb' 0 4

/-- `SA = CMD[4]` (R60). -/
def cmdSA (w : CmdWord) : BitVec 1 := w.extractLsb' 4 1

/-- `SB = CMD[5]` (R60). -/
def cmdSB (w : CmdWord) : BitVec 1 := w.extractLsb' 5 1

/-- `RSV = CMD[7:6]` (R60). -/
def cmdRSV (w : CmdWord) : BitVec 2 := w.extractLsb' 6 2

/-- `SHAMT = CMD[15:8]` (R60, R62). -/
def cmdSHAMT (w : CmdWord) : Count := w.extractLsb' 8 8

/-- Operand A comes from `PA` for 0 and from `ACC` for 1 (R24, R60). -/
def srcAOfBit (b : BitVec 1) : SrcA := if b = 1#1 then .acc else .pa

/-- Operand B comes from `PB` for 0 and from `ACC` for 1 (R24, R60). -/
def srcBOfBit (b : BitVec 1) : SrcB := if b = 1#1 then .acc else .pb

/-- The bit `SA` of a source. -/
def bitOfSrcA : SrcA → BitVec 1
  | .pa => 0#1
  | .acc => 1#1

/-- The bit `SB` of a source. -/
def bitOfSrcB : SrcB → BitVec 1
  | .pb => 0#1
  | .acc => 1#1

/-- The opcode map, from operation to opcode (R63). -/
def opcodeOf : Op → BitVec 4
  | .add => 0x0#4
  | .sub => 0x1#4
  | .neg => 0x2#4
  | .shl => 0x3#4
  | .shr => 0x4#4
  | .mul => 0x5#4
  | .eq => 0x6#4
  | .ltu => 0x7#4

/-- The opcode map, from opcode to operation; `0x8` to `0xF` are reserved (R63, R66). -/
def opOfCode (c : BitVec 4) : Option Op :=
  match c.toNat with
  | 0 => some .add
  | 1 => some .sub
  | 2 => some .neg
  | 3 => some .shl
  | 4 => some .shr
  | 5 => some .mul
  | 6 => some .eq
  | 7 => some .ltu
  | _ => none

/-- What the decoder answers: a legal command, or the status code of an illegal one (R64). -/
inductive Decoded where
  | legal (i : Instr)
  | illegal (code : Status)
deriving DecidableEq, Repr

/-- The command an operation and its fields make, once the checks of R64 have passed. -/
def instrOfFields (op : Op) (a : SrcA) (b : SrcB) (n : Count) : Instr :=
  match op with
  | .add => .add a b
  | .sub => .sub a b
  | .neg => .neg a
  | .shl => .shl a n
  | .shr => .shr a n
  | .mul => .mul a b
  | .eq => .eq a b
  | .ltu => .ltu a b

/-- The decoder, its checks in the order of R64: reserved opcode, reserved field `RSV`, then `SB` and `SHAMT`
by the operation's shape. -/
def decode (w : CmdWord) : Decoded :=
  match opOfCode (cmdOp w) with
  | none => .illegal Status.illegalOpcode
  | some op =>
    if cmdRSV w ≠ 0#2 then .illegal Status.reservedField
    else
      let i := instrOfFields op (srcAOfBit (cmdSA w)) (srcBOfBit (cmdSB w)) (cmdSHAMT w)
      match op.shape with
      | .shift => if cmdSB w ≠ 0#1 then .illegal Status.reservedField else .legal i
      | .unary =>
        if cmdSHAMT w ≠ 0#8 then .illegal Status.reservedField
        else if cmdSB w ≠ 0#1 then .illegal Status.reservedField else .legal i
      | .binary => if cmdSHAMT w ≠ 0#8 then .illegal Status.reservedField else .legal i

/-- The command word with the given fields and `RSV = 00`: `SHAMT`, `RSV`, `SB`, `SA`, `OP` from bit 15 down (R60). -/
def packFields (op : Op) (sa sb : BitVec 1) (n : Count) : CmdWord :=
  n ++ (0#2 ++ (sb ++ (sa ++ opcodeOf op)))

/-- The encoder: the one command word of a command (R60, R61, R67, R72). -/
def encode : Instr → CmdWord
  | .add a b => packFields .add (bitOfSrcA a) (bitOfSrcB b) 0#8
  | .sub a b => packFields .sub (bitOfSrcA a) (bitOfSrcB b) 0#8
  | .neg a => packFields .neg (bitOfSrcA a) 0#1 0#8
  | .shl a n => packFields .shl (bitOfSrcA a) 0#1 n
  | .shr a n => packFields .shr (bitOfSrcA a) 0#1 n
  | .mul a b => packFields .mul (bitOfSrcA a) (bitOfSrcB b) 0#8
  | .eq a b => packFields .eq (bitOfSrcA a) (bitOfSrcB b) 0#8
  | .ltu a b => packFields .ltu (bitOfSrcA a) (bitOfSrcB b) 0#8

/-- The operation of a command. -/
def instrOp : Instr → Op
  | .add _ _ => .add
  | .sub _ _ => .sub
  | .neg _ => .neg
  | .shl _ _ => .shl
  | .shr _ _ => .shr
  | .mul _ _ => .mul
  | .eq _ _ => .eq
  | .ltu _ _ => .ltu

/-- One row of the opcode table (R65). -/
structure TableRow where
  op : Op
  matchWord : CmdWord
  mask : CmdWord
deriving DecidableEq, Repr

/-- `(CMD & mask) == match` (R65). -/
def rowMatches (r : TableRow) (w : CmdWord) : Bool := (w &&& r.mask) == r.matchWord

/-- The row of each operation, as R65 prints it. The decoder does not read it: it is a second transcription of
the encoding, which the statements hold against the decoder. -/
def tableRow : Op → TableRow
  | .add => ⟨.add, 0x0000#16, 0xFFCF#16⟩
  | .sub => ⟨.sub, 0x0001#16, 0xFFCF#16⟩
  | .neg => ⟨.neg, 0x0002#16, 0xFFEF#16⟩
  | .shl => ⟨.shl, 0x0003#16, 0x00EF#16⟩
  | .shr => ⟨.shr, 0x0004#16, 0x00EF#16⟩
  | .mul => ⟨.mul, 0x0005#16, 0xFFCF#16⟩
  | .eq => ⟨.eq, 0x0006#16, 0xFFCF#16⟩
  | .ltu => ⟨.ltu, 0x0007#16, 0xFFCF#16⟩

/-- The eight rows of the opcode table (R65). -/
def opcodeTable : List TableRow :=
  [tableRow .add, tableRow .sub, tableRow .neg, tableRow .shl, tableRow .shr, tableRow .mul, tableRow .eq,
    tableRow .ltu]

/-- Reads `nbits` bits of an instruction as the opcode table numbers them. A command word is exactly 16 bits
(R69), so a longer one is none; the bits above `nbits` are 0. -/
def decodeTableWord (nbits w : Nat) : Option Instr :=
  if nbits ≤ 16 ∧ w < 2 ^ nbits then
    match decode (BitVec.ofNat 16 w) with
    | .legal i => some i
    | .illegal _ => none
  else none

end Sys2Proof
end

