-- ==== Sys2Proof/Machine/State.lean ====
section
/-! DEFINITION. The state of the block, its inputs and the record of its responses, as plain data (R20, R23, R29,
R35, R36, R208), and the state right after reset. -/

namespace Sys2Proof.Machine

/-- One command as the host presents it: `CMD`, `PA` and `PB` together (R23). -/
structure Command where
  cmd : CmdWord
  pa : Word
  pb : Word
deriving DecidableEq, Repr

/-- One response of the block: `RESULT` and `STATUS` (R23, R25). -/
structure Response where
  result : Word
  status : Status
deriving DecidableEq, Repr

/-- What the host does to the block. A host presents its next command only after the previous response (R205), so
events are taken one at a time. -/
inductive HostEvent where
  /-- a command that is accepted and answered (R205) -/
  | command (c : Command)
  /-- reset, while no command is pending (R200) -/
  | reset
  /-- a command that is accepted and then discarded by reset before it is answered (R200, U10) -/
  | cutOff (c : Command)
deriving DecidableEq, Repr

/-- The machine. `acc` is the block's only register (R20); `outputs` is what its output ports carry (R25, R35);
`ports` and `inbox` are its inputs; `log` is the observation (R208). -/
structure State where
  /-- `ACC` (R20) -/
  acc : Word
  /-- the input ports `CMD`, `PA`, `PB` as sampled when the current command was accepted (R23, R205) -/
  ports : Command
  /-- the host's events not taken yet, in arrival order (R48, R51) -/
  inbox : List HostEvent
  /-- the output ports `RESULT` and `STATUS`; `none` until the first command after reset is answered (R35, U9) -/
  outputs : Option Response
  /-- every response given, oldest first (R36, R196, R208) -/
  log : List Response
deriving DecidableEq, Repr

/-- Why the machine could stop with a fault: no reason exists. The block has no fault, trap or interrupt, and every
legal command completes (R183 to R185); an illegal command is answered, not a fault (R196). -/
inductive Fault where
deriving DecidableEq, Repr

/-- Why the model could give no meaning. -/
inductive Refusal where
  /-- The instruction has no meaning in the model yet. Only an arm of `exec` may raise it, and none does. Safe: the
  model stops where the hardware goes on. -/
  | notModelled (mnemonic : String)
deriving DecidableEq, Repr

/-- The state after reset: `ACC = ZERO` and no defined output (R35, R200), ready for the first command (R202). The
ports' zeros are the model's choice (log entry 3); nothing reads them before a command replaces them. -/
def State.reset : State where
  acc := 0#256
  ports := ⟨0#16, 0#256, 0#256⟩
  inbox := []
  outputs := none
  log := []

end Sys2Proof.Machine
end

