-- ==== Sys2Proof/Machine/Operands.lean ====
section
/-! DEFINITION. Limbs, constants, operand construction and operand selection (R11, R12, R24, R27, R28). -/

namespace Sys2Proof.Machine

/-- The `higher` limb, `v[255:128]` (R11). -/
def hi (v : Word) : Limb := v.extractLsb' 128 128

/-- The `lower` limb, `v[127:0]` (R11). -/
def lo (v : Word) : Limb := v.extractLsb' 0 128

/-- `W(h, l)`, the value `h·2^128 + l` (R12). -/
def W (h l : Limb) : Word := h ++ l

/-- `MAX_128 = 2^128 - 1` (R12). -/
def MAX_128 : Limb := BitVec.allOnes 128

/-- `ZERO = W(0, 0)` (R12, R28). -/
def ZERO : Word := W 0#128 0#128

/-- `ONE = W(0, 1)` (R12, R28). -/
def ONE : Word := W 0#128 1#128

/-- `MAX = W(2^128 - 1, 2^128 - 1)` (R12, R28). -/
def MAX : Word := W MAX_128 MAX_128

/-- The port value of a native unsigned value of `k` bits, `k ≤ 128`: `W(0, zext_128(u))` (R27). -/
def ofNative (k : Nat) (_fits : k ≤ 128) (u : BitVec k) : Word := W 0#128 (u.setWidth 128)

/-- The port value of a pair of native unsigned values: `W(zext_128(h), zext_128(l))` (R27). -/
def ofPair (k m : Nat) (_fitsHigh : k ≤ 128) (_fitsLow : m ≤ 128) (h : BitVec k) (l : BitVec m) : Word :=
  W (h.setWidth 128) (l.setWidth 128)

/-- `opA = (SA == 1) ? ACC : PA` (R24). -/
def opA (a : SrcA) (s : State) : Word :=
  match a with
  | .pa => s.ports.pa
  | .acc => s.acc

/-- `opB = (SB == 1) ? ACC : PB` (R24). -/
def opB (b : SrcB) (s : State) : Word :=
  match b with
  | .pb => s.ports.pb
  | .acc => s.acc

end Sys2Proof.Machine
end

