-- ==== Sys2Proof/Machine/Flags.lean ====
section
/-! DEFINITION. The block has no flags (R30). The carries and borrows below are the combinational signals between the
limbs (R13, R33, R83): they live within one command and are not stored. -/

namespace Sys2Proof.Machine

/-- `carry_N(a, b, c)`: 1 if `a + b + c >= 2^N`, else 0 (R13). -/
def carryN (n : Nat) (a b c : BitVec n) : BitVec 1 :=
  if 2 ^ n ≤ a.toNat + b.toNat + c.toNat then 1#1 else 0#1

/-- `borrow_N(a, b)`: 1 if `a < b`, else 0 (R13). -/
def borrowN (n : Nat) (a b : BitVec n) : BitVec 1 := if a.toNat < b.toNat then 1#1 else 0#1

/-- The 129-bit sum of two limbs (R81, R83). -/
def limbSum (a b : Limb) : BitVec 129 := a.setWidth 129 + b.setWidth 129

/-- The carry out of a limb sum: its bit 128 (R81). -/
def limbCarry (a b : Limb) : BitVec 1 := (limbSum a b).extractLsb' 128 1

end Sys2Proof.Machine
end

