-- ==== Sys2Proof/Machine/Ops.lean ====
section
/-! DEFINITION. The shared operations: accepting a command, writing `ACC`, answering, completing a legal command,
answering an illegal one (the block's only exceptional event), and reset. -/

namespace Sys2Proof.Machine

/-- A command is accepted: `CMD`, `PA` and `PB` are sampled together (R23, R205). -/
def accept (c : Command) (s : State) : State := { s with ports := c }

/-- `ACC <- v`, whole (R14, R45). -/
def writeAcc (v : Word) (s : State) : State := { s with acc := v }

/-- `respond(result, status)`: the output ports carry the response, and the observation records it (R14, R196, R208). -/
def respond (result : Word) (status : Status) (s : State) : State :=
  { s with outputs := some ⟨result, status⟩, log := s.log ++ [⟨result, status⟩] }

/-- The end of every legal command: `ACC <- v; respond(ACC, 0b00)` (R21, R25). Its argument is computed from the state
before the command, so operands are read before `ACC` is written (R22). -/
def complete (v : Word) (s : State) : Host.Outcome State Fault Refusal :=
  .next (respond (writeAcc v s).acc Status.ok (writeAcc v s))

/-- `raise IllegalCommand(code)`: `ACC` is not written, the response is `(ACC, code)`, and there is no other effect
(R181). Nothing is saved and control goes nowhere (R185), so there is no return from it (R186). -/
def raiseIllegal (code : Status) (s : State) : Host.Outcome State Fault Refusal :=
  .next (respond s.acc code s)

/-- Reset: `ACC <- ZERO`, and the outputs have no defined value until the next answer (R35, R200). Responses already
given stay in the observation (log entry 4). -/
def resetBlock (s : State) : State := { s with acc := ZERO, outputs := none }

/-- The host-side index of R29: how many commands have been answered. -/
def index (s : State) : Nat := s.log.length

/-- The observation of a run: the final `ACC` and the responses in order (R208). -/
def observe (s : State) : Word × List Response := (s.acc, s.log)

/-- What the head of `inbox` asks of the block. -/
inductive Poll where
  /-- nothing is left to do in this step -/
  | done (s : State)
  /-- a command has been accepted and stands on the ports -/
  | accepted (s : State)
deriving DecidableEq, Repr

/-- Takes the next host event (R48). With none, the block holds its state (R195, log entry 5). A reset discards a
command accepted and not yet answered (R200). -/
def poll (s : State) : Poll :=
  match s.inbox with
  | [] => .done s
  | .reset :: rest => .done (resetBlock { s with inbox := rest })
  | .cutOff c :: rest => .done (resetBlock (accept c { s with inbox := rest }))
  | .command c :: rest => .accepted (accept c { s with inbox := rest })

/-- Puts a command word at the head of the host's events, with the port values that stand on the ports now. -/
def presentWord (w : CmdWord) (s : State) : State :=
  { s with inbox := .command ⟨w, s.ports.pa, s.ports.pb⟩ :: s.inbox }

end Sys2Proof.Machine
end

