-- ==== Sys2Proof/Machine/AddSub.lean ====
section
/-! DEFINITION. The adder/subtractor and the negator, and the commands ADD, SUB, NEG (R80 to R89). -/

namespace Sys2Proof.Machine

/-- The adder: the lower limbs' carry goes into the higher limb, the carry out of the higher limb is dropped (R81). -/
def add256 (a b : Word) : Word :=
  W (hi a + hi b + (limbCarry (lo a) (lo b)).setWidth 128) ((limbSum (lo a) (lo b)).extractLsb' 0 128)

/-- The subtractor: the lower limbs' borrow is taken from the higher limb, the borrow out of it is dropped (R85). -/
def sub256 (a b : Word) : Word :=
  W (hi a - (borrowN 128 (lo a) (lo b)).setWidth 128 - hi b) (lo a - lo b)

/-- The negator: `sub256(MAX, a)`, then plus `ONE` (R86). -/
def neg256 (a : Word) : Word := add256 (sub256 MAX a) ONE

/-- ADD (R80). -/
def execAdd (a : SrcA) (b : SrcB) (s : State) : Host.Outcome State Fault Refusal :=
  complete (add256 (opA a s) (opB b s)) s

/-- SUB: operand A is the minuend (R84). -/
def execSub (a : SrcA) (b : SrcB) (s : State) : Host.Outcome State Fault Refusal :=
  complete (sub256 (opA a s) (opB b s)) s

/-- NEG (R88). -/
def execNeg (a : SrcA) (s : State) : Host.Outcome State Fault Refusal :=
  complete (neg256 (opA a s)) s

end Sys2Proof.Machine
end

