-- ==== Sys2Proof/Machine/Compare.lean ====
section
/-! DEFINITION. The comparator, and the commands EQ, LTU (R170 to R174). -/

namespace Sys2Proof.Machine

/-- Equality of both limbs (R171). -/
def eq256 (a b : Word) : BitVec 1 :=
  if hi a = hi b ∧ lo a = lo b then 1#1 else 0#1

/-- Unsigned order, lexicographic on the limbs (R171). -/
def ltu256 (a b : Word) : BitVec 1 :=
  if hi a ≠ hi b then borrowN 128 (hi a) (hi b) else borrowN 128 (lo a) (lo b)

/-- EQ writes `zext_256` of the comparison: `ONE` or `ZERO` (R170, R174). -/
def execEq (a : SrcA) (b : SrcB) (s : State) : Host.Outcome State Fault Refusal :=
  complete ((eq256 (opA a s) (opB b s)).setWidth 256) s

/-- LTU writes `zext_256` of the comparison: `ONE` or `ZERO` (R172, R174). -/
def execLtu (a : SrcA) (b : SrcB) (s : State) : Host.Outcome State Fault Refusal :=
  complete ((ltu256 (opA a s) (opB b s)).setWidth 256) s

end Sys2Proof.Machine
end

