-- ==== Sys2Proof/Machine/Shift.lean ====
section
/-! DEFINITION. The barrel shifter, and the commands SHL, SHR (R110 to R118). Every limb shift below is by a count in
`0..127`: the count 0 is taken first, so no limb is shifted by 128 (R112). -/

namespace Sys2Proof.Machine

/-- The left shifter (R110, R112). -/
def shl256 (a : Word) (n : Count) : Word :=
  if n.toNat = 0 then a
  else if n.toNat < 128 then
    W ((hi a <<< n.toNat) ||| (lo a >>> (128 - n.toNat))) (lo a <<< n.toNat)
  else W (lo a <<< (n.toNat - 128)) 0#128

/-- The right shifter, logical (R111, R112). -/
def shr256 (a : Word) (n : Count) : Word :=
  if n.toNat = 0 then a
  else if n.toNat < 128 then
    W (hi a >>> n.toNat) ((lo a >>> n.toNat) ||| (hi a <<< (128 - n.toNat)))
  else W 0#128 (hi a >>> (n.toNat - 128))

/-- SHL (R113). -/
def execShl (a : SrcA) (n : Count) (s : State) : Host.Outcome State Fault Refusal :=
  complete (shl256 (opA a s) n) s

/-- SHR (R115). -/
def execShr (a : SrcA) (n : Count) (s : State) : Host.Outcome State Fault Refusal :=
  complete (shr256 (opA a s) n) s

end Sys2Proof.Machine
end

