-- ==== Sys2Proof/Machine/Multiply.lean ====
section
/-! DEFINITION. The Karatsuba multiplier at the datapath level, and the command MUL (R130 to R142). -/

namespace Sys2Proof.Machine

/-- The native multiplier, 64×64→128, exact (R130). -/
def mul64 (x y : HalfLimb) : Limb := x.setWidth 128 * y.setWidth 128

/-- `x[127:64]` (R132). -/
def limbHi (x : Limb) : HalfLimb := x.extractLsb' 64 64

/-- `x[63:0]` (R132). -/
def limbLo (x : Limb) : HalfLimb := x.extractLsb' 0 64

/-- `zext_128(xh) + zext_128(xl)`, exact, at most `2^65 - 2` (R132, R133). -/
def halfSum (x : Limb) : Limb := (limbHi x).setWidth 128 + (limbLo x).setWidth 128

/-- The fast path's condition: both operands fit in 64 bits (R132 step 1). -/
def bothFit64 (x y : Limb) : Bool := decide (x.toNat < 2 ^ 64) && decide (y.toNat < 2 ^ 64)

/-- The fast path (R132 step 1). -/
def fastProduct (x y : Limb) : Word := W 0#128 (mul64 (limbLo x) (limbLo y))

/-- The cross term: `mid - lo`, then `- hi`, borrowing between `mid`'s limbs (R132 step 3). -/
def crossTerm (mid : Word) (l h : Limb) : Word := sub256 (sub256 mid (W 0#128 l)) (W 0#128 h)

/-- The general path after its one recursive call has given `mid` (R132 steps 2 to 4). -/
def karatsuba (x y : Limb) (mid : Word) : Word :=
  let l := mul64 (limbLo x) (limbLo y)
  let h := mul64 (limbHi x) (limbHi y)
  add256 (W h l) (shl256 (crossTerm mid l h) 64#8)

/-- `mul128` with `d` splitting levels left and the fast-path product at the bottom (R132, R135). -/
def mul128At : Nat → Limb → Limb → Word
  | 0, x, y => fastProduct x y
  | d + 1, x, y =>
    if bothFit64 x y then fastProduct x y
    else karatsuba x y (mul128At d (halfSum x) (halfSum y))

/-- `mul128`: "two splitting levels and one fast-path product at the bottom" (R135). That two levels suffice for
every input, so that the recursion of R132 holds of it as written, is a statement. -/
def mul128 (x y : Limb) : Word := mul128At 2 x y

/-- The 256×256 multiply, truncated; no `hi(a)·hi(b)` product (R137, R139). -/
def mul256 (a b : Word) : Word :=
  let lowPart := mul128 (lo a) (lo b)
  let cross1 := shl256 (mul128 (lo a) (hi b)) 128#8
  let cross2 := shl256 (mul128 (hi a) (lo b)) 128#8
  add256 (add256 lowPart cross1) cross2

/-- A value together with the native multiplications performed to compute it (R136). -/
structure Counted (α : Type) where
  value : α
  natives : Nat
deriving DecidableEq, Repr

/-- The native multiplier, counted: the one place where a multiplication is counted (R130, R136). -/
def countedMul64 (x y : HalfLimb) : Counted Limb := ⟨mul64 x y, 1⟩

/-- The fast path, counted (R132 step 1, R136). -/
def countedFast (x y : Limb) : Counted Word :=
  let p := countedMul64 (limbLo x) (limbLo y)
  ⟨W 0#128 p.value, p.natives⟩

/-- The general path, counted: its result is made from the counted products and the counted `mid` (R132, R136). -/
def countedKaratsuba (x y : Limb) (mid : Counted Word) : Counted Word :=
  let l := countedMul64 (limbLo x) (limbLo y)
  let h := countedMul64 (limbHi x) (limbHi y)
  ⟨add256 (W h.value l.value) (shl256 (crossTerm mid.value l.value h.value) 64#8),
    l.natives + h.natives + mid.natives⟩

/-- `mul128At`, counted (R135, R136). -/
def countedMul128At : Nat → Limb → Limb → Counted Word
  | 0, x, y => countedFast x y
  | d + 1, x, y =>
    if bothFit64 x y then countedFast x y
    else countedKaratsuba x y (countedMul128At d (halfSum x) (halfSum y))

/-- `mul128`, counted (R136). -/
def countedMul128 (x y : Limb) : Counted Word := countedMul128At 2 x y

/-- `mul256`, counted: its result is made from its counted products, and their counts are all it performs (R139). -/
def countedMul256 (a b : Word) : Counted Word :=
  let p := countedMul128 (lo a) (lo b)
  let q := countedMul128 (lo a) (hi b)
  let r := countedMul128 (hi a) (lo b)
  ⟨add256 (add256 p.value (shl256 q.value 128#8)) (shl256 r.value 128#8), p.natives + q.natives + r.natives⟩

/-- MUL (R138). -/
def execMul (a : SrcA) (b : SrcB) (s : State) : Host.Outcome State Fault Refusal :=
  complete (mul256 (opA a s) (opB b s)) s

end Sys2Proof.Machine
end

