-- ==== Sys2Proof/Machine/Dispatch.lean ====
section
/-! DEFINITION. Which meaning each command has: one arm per constructor. -/

namespace Sys2Proof.Machine

def exec (i : Instr) (s : State) : Host.Outcome State Fault Refusal :=
  match i with
  | .add a b => Sys2Proof.Machine.execAdd a b s
  | .sub a b => Sys2Proof.Machine.execSub a b s
  | .neg a => Sys2Proof.Machine.execNeg a s
  | .shl a n => Sys2Proof.Machine.execShl a n s
  | .shr a n => Sys2Proof.Machine.execShr a n s
  | .mul a b => Sys2Proof.Machine.execMul a b s
  | .eq a b => Sys2Proof.Machine.execEq a b s
  | .ltu a b => Sys2Proof.Machine.execLtu a b s

end Sys2Proof.Machine
end

