-- ==== Sys2Proof/Machine/Step.lean ====
section
/-! DEFINITION. One step of the machine: one host event taken, and a command decoded and answered (R36). -/

namespace Sys2Proof.Machine

/-- One step. A command is decoded (R64); a legal one runs its meaning, an illegal one is answered with its status
and changes nothing (R181, R196). -/
def step (s : State) : Host.Outcome State Fault Refusal :=
  match poll s with
  | .done t => .next t
  | .accepted t =>
    match decode t.ports.cmd with
    | .legal i => exec i t
    | .illegal code => raiseIllegal code t

/-- `s` with the command word `w` as the next command the host presents, on the port values that stand there now. The
block fetches nothing (R29): a command comes from the head of `inbox` (log entry 1). A command
word is exactly 16 bits (R69): whatever the length given, the word placed is the low 16 bits of `w` (the model's choice,
log entry 10). -/
def State.withFetchWord (s : State) (_nbits w : Nat) : State := presentWord (BitVec.ofNat 16 w) s

end Sys2Proof.Machine
end

