-- ==== Sys2Proof/Machine/Assembler.lean ====
section
/-! DEFINITION. The host's side of a command: pseudo-instructions and assembler text (R70, R71). Nothing here is part
of a step; it says which command a line of text presents to the block. -/

namespace Sys2Proof.Machine

/-- The pseudo-instructions of R71. -/
inductive Pseudo where
  | nop | lda | clr | dbl | sqr | inc | dec | not
deriving DecidableEq, Repr

/-- The command a pseudo-instruction expands to (R71). -/
def pseudoExpansion : Pseudo → Instr
  | .nop => .shl .acc 0#8
  | .lda => .shl .pa 0#8
  | .clr => .sub .acc .acc
  | .dbl => .add .acc .acc
  | .sqr => .mul .acc .acc
  | .inc => .add .acc .pb
  | .dec => .sub .acc .pb
  | .not => .sub .pa .acc

/-- The value a pseudo-instruction fixes on `PA`, if any (R71). -/
def pseudoPA : Pseudo → Option Word
  | .not => some MAX
  | .nop => none
  | .lda => none
  | .clr => none
  | .dbl => none
  | .sqr => none
  | .inc => none
  | .dec => none

/-- The value a pseudo-instruction fixes on `PB`, if any (R71). -/
def pseudoPB : Pseudo → Option Word
  | .inc => some ONE
  | .dec => some ONE
  | .nop => none
  | .lda => none
  | .clr => none
  | .dbl => none
  | .sqr => none
  | .not => none

/-- The command reads port `PA` (R24, R61). -/
def readsPA : Instr → Bool
  | .add a _ => a == .pa
  | .sub a _ => a == .pa
  | .neg a => a == .pa
  | .shl a _ => a == .pa
  | .shr a _ => a == .pa
  | .mul a _ => a == .pa
  | .eq a _ => a == .pa
  | .ltu a _ => a == .pa

/-- The command reads port `PB` (R24, R61). -/
def readsPB : Instr → Bool
  | .add _ b => b == .pb
  | .sub _ b => b == .pb
  | .neg _ => false
  | .shl _ _ => false
  | .shr _ _ => false
  | .mul _ b => b == .pb
  | .eq _ b => b == .pb
  | .ltu _ b => b == .pb

/-- The command reads `ACC` as an operand (R20, R24). -/
def readsAcc : Instr → Bool
  | .add a b => a == .acc || b == .acc
  | .sub a b => a == .acc || b == .acc
  | .neg a => a == .acc
  | .shl a _ => a == .acc
  | .shr a _ => a == .acc
  | .mul a b => a == .acc || b == .acc
  | .eq a b => a == .acc || b == .acc
  | .ltu a b => a == .acc || b == .acc

/-- A line's command with the port data written after it; a port that is not named is left to the host. -/
structure Assembled where
  instr : Instr
  pa : Option Word
  pb : Option Word
deriving DecidableEq, Repr

/-- The command presented to the block, for any values on the ports the line does not name (R24, R70). -/
def assembledCommand (x : Assembled) (anyPA anyPB : Word) : Command :=
  ⟨encode x.instr, x.pa.getD anyPA, x.pb.getD anyPB⟩

/-- A pseudo-instruction as a command with its port data (R71). -/
def pseudoAssembled (p : Pseudo) : Assembled := ⟨pseudoExpansion p, pseudoPA p, pseudoPB p⟩

/-- Only ports the command reads may be named (R70). -/
def portsNamedAreRead (x : Assembled) : Bool :=
  (x.pa.isNone || readsPA x.instr) && (x.pb.isNone || readsPB x.instr)

/-- A lexical token of a line: a name or number in capitals, or one other character. -/
inductive Token where
  | word (cs : List Char)
  | sym (c : Char)
deriving DecidableEq, Repr

/-- Ends the word being read, if there is one. -/
def endWord (readBackwards : List Char) (rest : List Token) : List Token :=
  if readBackwards.isEmpty then rest else .word readBackwards.reverse :: rest

/-- Cuts a line into tokens: mnemonics and operand names are case-insensitive, `;` starts a comment (R70). The model's
choice (log entry 9): every name and number is put in capitals, so the case of a `0x` prefix, of hexadecimal digits, of
`ZERO`, `ONE`, `MAX` and of a pseudo-instruction's name does not count either; white space of any kind and amount may
stand between two tokens, a line end among it. -/
def lex (readBackwards : List Char) : List Char → List Token
  | [] => endWord readBackwards []
  | c :: cs =>
    if c = ';' then endWord readBackwards []
    else if c.isAlphanum || c == '_' then lex (c.toUpper :: readBackwards) cs
    else if c.isWhitespace then endWord readBackwards (lex [] cs)
    else endWord readBackwards (.sym c :: lex [] cs)

/-- The value of a digit in a base, letters in capitals. -/
def digitValue (base : Nat) (c : Char) : Option Nat :=
  let d := if c.isDigit then c.toNat - 48 else if c.isUpper then c.toNat - 55 else base
  if d < base then some d else none

/-- Digits read from the left after the value `v` of those before them. -/
def digitsFrom (base : Nat) (v : Nat) : List Char → Option Nat
  | [] => some v
  | c :: cs =>
    match digitValue base c with
    | some d => digitsFrom base (v * base + d) cs
    | none => none

/-- A nonempty digit string. -/
def digits (base : Nat) (cs : List Char) : Option Nat :=
  if cs.isEmpty then none else digitsFrom base 0 cs

/-- `<n>`: a decimal or `0x`-prefixed hexadecimal integer (R70); its range is checked by `AsmLine.countFits`. That the
prefix and the digits may be of either case (`lex`), and that leading zeros are allowed, is the model's choice (log
entry 9). -/
def readCount : List Char → Option Nat
  | '0' :: 'X' :: cs => digits 16 cs
  | cs => digits 10 cs

/-- A 256-bit literal `0x<32 hex digits>_<32 hex digits>`, the higher limb first, or one of the constants (R12). That
port data is written in these forms, and that prefix, digits and the constants' names may be of either case (`lex`), is
the model's choice (log entry 9). -/
def readValue : List Char → Option Word
  | ['Z', 'E', 'R', 'O'] => some ZERO
  | ['O', 'N', 'E'] => some ONE
  | ['M', 'A', 'X'] => some MAX
  | '0' :: 'X' :: cs =>
    if cs.length = 65 ∧ cs[32]? = some '_' then
      match digits 16 (cs.take 32), digits 16 (cs.drop 33) with
      | some h, some l => some (W (BitVec.ofNat 128 h) (BitVec.ofNat 128 l))
      | _, _ => none
    else none
  | _ => none

/-- The mnemonics (R63, R70). -/
def readOp : List Char → Option Op
  | ['A', 'D', 'D'] => some .add
  | ['S', 'U', 'B'] => some .sub
  | ['N', 'E', 'G'] => some .neg
  | ['S', 'H', 'L'] => some .shl
  | ['S', 'H', 'R'] => some .shr
  | ['M', 'U', 'L'] => some .mul
  | ['E', 'Q'] => some .eq
  | ['L', 'T', 'U'] => some .ltu
  | _ => none

/-- The pseudo-instruction names (R71), of either case (`lex`, log entry 9). -/
def readPseudo : List Char → Option Pseudo
  | ['N', 'O', 'P'] => some .nop
  | ['L', 'D', 'A'] => some .lda
  | ['C', 'L', 'R'] => some .clr
  | ['D', 'B', 'L'] => some .dbl
  | ['S', 'Q', 'R'] => some .sqr
  | ['I', 'N', 'C'] => some .inc
  | ['D', 'E', 'C'] => some .dec
  | ['N', 'O', 'T'] => some .not
  | _ => none

/-- The operand names (R70). -/
def readOperand : List Char → Option OperandName
  | ['P', 'A'] => some .pa
  | ['P', 'B'] => some .pb
  | ['A', 'C', 'C'] => some .acc
  | _ => none

/-- The opening brace of port data. -/
def openBrace : Char := Char.ofNat 123

/-- The closing brace of port data. -/
def closeBrace : Char := Char.ofNat 125

/-- The items of port data between the braces: `PA=<v>`, `PB=<v>`, or both in that order (R70; the order, and that
braces are not empty, are the model's choice, log entry 9). -/
def readPortItems : List Token → Option (Option Word × Option Word)
  | [.word ['P', 'A'], .sym '=', .word v] => (readValue v).map fun x => (some x, none)
  | [.word ['P', 'B'], .sym '=', .word v] => (readValue v).map fun x => (none, some x)
  | [.word ['P', 'A'], .sym '=', .word v, .sym ',', .word ['P', 'B'], .sym '=', .word u] =>
    match readValue v, readValue u with
    | some x, some y => some (some x, some y)
    | _, _ => none
  | _ => none

/-- Port data, or nothing (R70). That a port the command reads may be left out of the text is the model's choice (log
entry 9). -/
def readPorts (ts : List Token) : Option (Option Word × Option Word) :=
  match ts with
  | [] => some (none, none)
  | .sym c :: rest =>
    if c = openBrace ∧ rest.getLast? = some (.sym closeBrace) then readPortItems rest.dropLast else none
  | .word _ :: _ => none

/-- A command's mnemonic and operands, and the tokens after them (R70). -/
def readCommand : List Token → Option (AsmLine × List Token)
  | .word m :: .word a :: .sym ',' :: .sym '#' :: .word n :: rest =>
    match readOp m, readOperand a, readCount n with
    | some op, some x, some k => some (⟨op, x, none, some k⟩, rest)
    | _, _, _ => none
  | .word m :: .word a :: .sym ',' :: .word b :: rest =>
    match readOp m, readOperand a, readOperand b with
    | some op, some x, some y => some (⟨op, x, some y, none⟩, rest)
    | _, _, _ => none
  | .word m :: .word a :: rest =>
    match readOp m, readOperand a with
    | some op, some x => some (⟨op, x, none, none⟩, rest)
    | _, _ => none
  | _ => none

/-- The value a pseudo-instruction fixes on a port beside the one its line names: two different values are refused (the
model's choice, log entry 9). -/
def mergePort : Option Word → Option Word → Option (Option Word)
  | none, given => some given
  | some v, none => some (some v)
  | some v, some g => if v = g then some (some v) else none

/-- A pseudo-instruction's line (R71); its port data in text is the model's choice (log entry 9). -/
def assemblePseudo (p : Pseudo) (rest : List Token) : Option Assembled :=
  match readPorts rest with
  | none => none
  | some (pa, pb) =>
    match mergePort (pseudoPA p) pa, mergePort (pseudoPB p) pb with
    | some x, some y => some ⟨pseudoExpansion p, x, y⟩
    | _, _ => none

/-- An ordinary command's line. -/
def assembleCommand (ts : List Token) : Option Assembled :=
  match readCommand ts with
  | none => none
  | some (line, rest) =>
    match line.toInstr?, readPorts rest with
    | some i, some (pa, pb) => some ⟨i, pa, pb⟩
    | _, _ => none

/-- Assembles the tokens of one line. -/
def assembleTokens (ts : List Token) : Option Assembled :=
  match ts with
  | .word m :: rest =>
    match readPseudo m with
    | some p => assemblePseudo p rest
    | none => assembleCommand ts
  | _ => none

/-- The assembler: one line of text to a command with its port data, or a refusal (R70, R71). -/
def assemble (text : List Char) : Option Assembled :=
  match assembleTokens (lex [] text) with
  | some x => if portsNamedAreRead x then some x else none
  | none => none

end Sys2Proof.Machine
end

