-- ==== Sys2Proof/Machine/Reference.lean ====
section
/-! DEFINITION. The value level (R141): what each command writes as whole-word arithmetic, the operation column of the
opcode map (R63), and the answers to a list of commands as a fold (R48). `exec` does not use it; the statements hold
the datapath against it. -/

namespace Sys2Proof.Machine

/-- The value of operand A, given `ACC` and `PA` (R24). -/
def pickA (a : SrcA) (acc pa : Word) : Nat :=
  match a with
  | .pa => pa.toNat
  | .acc => acc.toNat

/-- The value of operand B, given `ACC` and `PB` (R24). -/
def pickB (b : SrcB) (acc pb : Word) : Nat :=
  match b with
  | .pb => pb.toNat
  | .acc => acc.toNat

/-- The value a command writes to `ACC` (R63). -/
def valueOf (i : Instr) (acc pa pb : Word) : Word :=
  match i with
  | .add a b => BitVec.ofNat 256 ((pickA a acc pa + pickB b acc pb) % 2 ^ 256)
  | .sub a b => BitVec.ofInt 256 (((pickA a acc pa : Int) - (pickB b acc pb : Int)) % 2 ^ 256)
  | .neg a => BitVec.ofNat 256 ((2 ^ 256 - pickA a acc pa) % 2 ^ 256)
  | .shl a n => BitVec.ofNat 256 ((pickA a acc pa * 2 ^ n.toNat) % 2 ^ 256)
  | .shr a n => BitVec.ofNat 256 (pickA a acc pa / 2 ^ n.toNat)
  | .mul a b => BitVec.ofNat 256 ((pickA a acc pa * pickB b acc pb) % 2 ^ 256)
  | .eq a b => if pickA a acc pa = pickB b acc pb then 1#256 else 0#256
  | .ltu a b => if pickA a acc pa < pickB b acc pb then 1#256 else 0#256

/-- The response to one command, given `ACC` before it (R25, R181). -/
def answer (acc : Word) (c : Command) : Response :=
  match decode c.cmd with
  | .legal i => ⟨valueOf i acc c.pa c.pb, Status.ok⟩
  | .illegal code => ⟨acc, code⟩

/-- `ACC` after a list of commands: the left fold (R48). The response's value is `ACC` after the command (R25). -/
def foldAcc (acc : Word) (cs : List Command) : Word := cs.foldl (fun v c => (answer v c).result) acc

/-- The responses to a list of commands, in order (R208). -/
def answers (acc : Word) : List Command → List Response
  | [] => []
  | c :: cs => answer acc c :: answers (answer acc c).result cs

end Sys2Proof.Machine
end

