-- ==== Sys2Proof/Safety.lean ====
section
/-! DEFINITION. What statements mean by a completed command, an encoding, a kept invariant and a run in which nothing
was refused. -/

namespace Sys2Proof.Machine

/-- `t` is `s` after a legal command: the response is `(ACC, 00)`, on the outputs and at the end of the observation,
and nothing else but `ACC` changed (R21, R25). What `ACC` holds is the command's own rule. -/
def CompletedFrom (s t : State) : Prop :=
  t.outputs = some ⟨t.acc, 0b00#2⟩ ∧ t.log = s.log ++ [⟨t.acc, 0b00#2⟩] ∧
    t.ports = s.ports ∧ t.inbox = s.inbox

/-- The outputs, where they carry a response, carry the last one of the observation with `RESULT == ACC` (R25), and no
response has status `11` (R68, R180). -/
structure OutputsAgree (s : State) : Prop where
  result_is_acc : ∀ r, s.outputs = some r → r.result = s.acc
  outputs_are_last : ∀ r, s.outputs = some r → s.log.getLast? = some r
  status_never_three : ∀ r ∈ s.log, r.status ≠ 0b11#2

/-- Every response has status `00`: the named premise of R196. -/
def AllOk (rs : List Response) : Prop := ∀ r ∈ rs, r.status = 0b00#2

/-- The machine goes on for `k` steps without a fault or a refusal. -/
def RunsFor (k : Nat) (s : State) : Prop := ∃ t, Sys2Proof.core.run k s = .next t

/-- The operand A that bit 4 of a command word selects (R60). -/
def aOfWord (w : CmdWord) : SrcA := if w.toNat / 16 % 2 = 1 then .acc else .pa

/-- The operand B that bit 5 of a command word selects (R60). -/
def bOfWord (w : CmdWord) : SrcB := if w.toNat / 32 % 2 = 1 then .acc else .pb

/-- The count in bits 15 to 8 of a command word (R60, R62). -/
def countOfWord (w : CmdWord) : Count := BitVec.ofNat 8 (w.toNat / 256)

/-- A word of the row (`matchWord`, `mask`) decodes to the command `mk` makes of it, and a word with the row's opcode
that the row does not match is refused with status `10` (R65, R67). -/
def EncodedByRow (matchWord mask : CmdWord) (mk : CmdWord → Instr) : Prop :=
  ∀ w : CmdWord, (w &&& mask = matchWord → decode w = .legal (mk w)) ∧
    (w.toNat % 16 = matchWord.toNat → w &&& mask ≠ matchWord → decode w = .illegal 0b10#2)

/-- One step on a state whose next event is the command `(cmd, pa, pb)` writes `v` to `ACC` and answers `(v, 00)`. -/
def CommandWrites (cmd : CmdWord) (pa pb v : Word) : Prop :=
  ∀ (s : State) (rest : List HostEvent), s.inbox = .command ⟨cmd, pa, pb⟩ :: rest →
    ∃ t, step s = .next t ∧ t.acc = v ∧ t.outputs = some ⟨v, 0b00#2⟩

end Sys2Proof.Machine
end

