-- ==== Sys2Proof/Certificates/Slice0/Obligations.lean ====
section
/-! DEFINITION. The statements about the block, for the provers. -/

section
open Sys2Proof Sys2Proof.Machine

/-! ## Encoding and assembler -/

/-- Decoder and encoder agree, both ways: every command decodes from its word, and a legal word is the word of its
command, so each legal word has one meaning (R60, R64, R72). -/
def Obligations.DecodeAndEncodeAgree : Prop :=
  (∀ i : Instr, i.wellFormed = true ∧ decode (encode i) = .legal i) ∧
    ∀ (w : CmdWord) (i : Instr), decode w = .legal i → encode i = w

/-- R72, which the spec marks as derived from R60 and R63: a legal word is `OP + (SA << 4) + (SB << 5) + (n << 8)`, the
sum being the bitwise OR, with the table of forms and the examples. -/
def Obligations.CommandWordIsFieldSum : Prop :=
  (∀ (op : Op) (sa sb : BitVec 1) (n : Count),
    (packFields op sa sb n).toNat = (opcodeOf op).toNat + sa.toNat * 16 + sb.toNat * 32 + n.toNat * 256 ∧
    packFields op sa sb n = (opcodeOf op).setWidth 16 ||| (sa.setWidth 16 <<< 4) ||| (sb.setWidth 16 <<< 5) |||
      (n.setWidth 16 <<< 8)) ∧
  (∀ (mk : SrcA → SrcB → Instr) (code : Nat),
    (mk, code) ∈ [(Instr.add, 0), (Instr.sub, 1), (Instr.mul, 5), (Instr.eq, 6), (Instr.ltu, 7)] →
    (encode (mk .pa .pb)).toNat = 0x0000 + code ∧ (encode (mk .acc .pb)).toNat = 0x0010 + code ∧
    (encode (mk .pa .acc)).toNat = 0x0020 + code ∧ (encode (mk .acc .acc)).toNat = 0x0030 + code) ∧
  encode (.neg .pa) = 0x0002#16 ∧ encode (.neg .acc) = 0x0012#16 ∧
  (∀ n : Count,
    (encode (.shl .pa n)).toNat = n.toNat * 256 + 0x03 ∧ (encode (.shl .acc n)).toNat = n.toNat * 256 + 0x13 ∧
    (encode (.shr .pa n)).toNat = n.toNat * 256 + 0x04 ∧ (encode (.shr .acc n)).toNat = n.toNat * 256 + 0x14) ∧
  encode (.shl .acc 64#8) = 0x4013#16 ∧ encode (.shr .pa 255#8) = 0xFF04#16 ∧ encode (.mul .acc .pb) = 0x0015#16

/-- R65: the eight rows as printed; a legal word matches the row of its command and no other; a word that matches a
row is legal, and one that matches none is illegal (the spec marks R65 as derived from R60 and R64). -/
def Obligations.LegalWordMatchesExactlyOneRow : Prop :=
  opcodeTable.map (fun r => (r.op, r.matchWord.toNat, r.mask.toNat)) =
    [(Op.add, 0x0000, 0xFFCF), (Op.sub, 0x0001, 0xFFCF), (Op.neg, 0x0002, 0xFFEF), (Op.shl, 0x0003, 0x00EF),
      (Op.shr, 0x0004, 0x00EF), (Op.mul, 0x0005, 0xFFCF), (Op.eq, 0x0006, 0xFFCF), (Op.ltu, 0x0007, 0xFFCF)] ∧
  (∀ (w : CmdWord) (i : Instr), decode w = .legal i →
    opcodeTable.filter (fun r => rowMatches r w) = [tableRow (instrOp i)]) ∧
  (∀ (w : CmdWord) (r : TableRow), r ∈ opcodeTable → rowMatches r w = true → ∃ i, decode w = .legal i) ∧
  ∀ w : CmdWord, opcodeTable.filter (fun r => rowMatches r w) = [] → ∃ code, decode w = .illegal code

/-- R64: the decoder as a chain of checks on the word as a number, in the rule's order, and the count of legal words:
4 for each binary opcode, 2 for NEG, 512 for each shift, 1046 in all (the spec marks the count as derived). -/
def Obligations.DecoderChecksInOrder : Prop :=
  (∀ w : CmdWord, decode w =
    if 8 ≤ w.toNat % 16 then .illegal 0b01#2
    else if w.toNat / 64 % 4 ≠ 0 then .illegal 0b10#2
    else if w.toNat % 16 = 3 ∨ w.toNat % 16 = 4 then
      if w.toNat / 32 % 2 ≠ 0 then .illegal 0b10#2
      else if w.toNat % 16 = 3 then .legal (.shl (aOfWord w) (countOfWord w))
      else .legal (.shr (aOfWord w) (countOfWord w))
    else if w.toNat / 256 ≠ 0 then .illegal 0b10#2
    else if w.toNat % 16 = 2 then
      if w.toNat / 32 % 2 ≠ 0 then .illegal 0b10#2 else .legal (.neg (aOfWord w))
    else if w.toNat % 16 = 0 then .legal (.add (aOfWord w) (bOfWord w))
    else if w.toNat % 16 = 1 then .legal (.sub (aOfWord w) (bOfWord w))
    else if w.toNat % 16 = 5 then .legal (.mul (aOfWord w) (bOfWord w))
    else if w.toNat % 16 = 6 then .legal (.eq (aOfWord w) (bOfWord w))
    else .legal (.ltu (aOfWord w) (bOfWord w))) ∧
  (∀ op : Op, ∃ ws : List CmdWord, ws.Nodup ∧
    ws.length = (match op.shape with | .binary => 4 | .unary => 2 | .shift => 512) ∧
    ∀ w, w ∈ ws ↔ ∃ i, instrOp i = op ∧ decode w = .legal i) ∧
  ∃ ws : List CmdWord, ws.Nodup ∧ ws.length = 1046 ∧ ∀ w, w ∈ ws ↔ ∃ i, decode w = .legal i

/-- R66: a command with a reserved opcode is illegal with status `01` whatever its other fields and ports hold; it is
no hint and no no-op: the host sees the nonzero status, with `ACC` unchanged. -/
def Obligations.ReservedOpcodeAnswersStatusOne : Prop :=
  ∀ w : CmdWord, 8 ≤ w.toNat % 16 → decode w = .illegal 0b01#2 ∧
    ∀ (s : State) (pa pb : Word) (rest : List HostEvent), s.inbox = .command ⟨w, pa, pb⟩ :: rest →
      ∃ t, step s = .next t ∧ t.acc = s.acc ∧ t.outputs = some ⟨s.acc, 0b01#2⟩

/-- R67: among the defined opcodes, exactly the three cases of the rule are illegal with status `10`. -/
def Obligations.ReservedFieldAnswersStatusTwo : Prop :=
  ∀ w : CmdWord, w.toNat % 16 < 8 →
    (decode w = .illegal 0b10#2 ↔
      (w.toNat / 64 % 4 ≠ 0 ∨
       (w.toNat / 256 ≠ 0 ∧ w.toNat % 16 ≠ 3 ∧ w.toNat % 16 ≠ 4) ∨
       (w.toNat / 32 % 2 ≠ 0 ∧ (w.toNat % 16 = 2 ∨ w.toNat % 16 = 3 ∨ w.toNat % 16 = 4))))

/-- R182: an illegal word reports the first condition, a reserved opcode before any reserved field, with the rule's two
examples. -/
def Obligations.ReservedOpcodeReportedFirst : Prop :=
  (∀ (w : CmdWord) (code : Status), decode w = .illegal code →
    code = if 8 ≤ w.toNat % 16 then 0b01#2 else 0b10#2) ∧
  decode 0x0049#16 = .illegal 0b01#2 ∧ decode 0x0040#16 = .illegal 0b10#2

/-- Words written out from R60 and R63, one or more for each family, and the words of the tables' illegal rows. -/
def Obligations.WrittenWordsDecodeRight : Prop :=
  decode 0b0000000000000000#16 = .legal (.add .pa .pb) ∧
  decode 0b0000000000010001#16 = .legal (.sub .acc .pb) ∧
  decode 0b0000000000010010#16 = .legal (.neg .acc) ∧
  decode 0b0111111100000011#16 = .legal (.shl .pa 127#8) ∧
  decode 0b1000000100010100#16 = .legal (.shr .acc 129#8) ∧
  decode 0b0000000000110101#16 = .legal (.mul .acc .acc) ∧
  decode 0b0000000000100110#16 = .legal (.eq .pa .acc) ∧
  decode 0b0000000000010111#16 = .legal (.ltu .acc .pb) ∧
  decode 0b0000000000001000#16 = .illegal 0b01#2 ∧
  decode 0b0000000000100010#16 = .illegal 0b10#2

/-- R61, R70: the line checks are what reading a line needs; every command is read back from the line that writes it;
a count outside `0..255` is refused and not reduced. -/
def Obligations.LinesReadBackAndCountsAreNotReduced : Prop :=
  (∀ l : AsmLine, l.toInstr?.isSome = true ↔ l.wellFormed = true) ∧
  (∀ i : Instr, i.toLine.toInstr? = some i) ∧
  (∀ (l : AsmLine) (i : Instr), l.toInstr? = some i → i.toLine = l) ∧
  ∀ (op : Op) (a : OperandName) (b : Option OperandName) (n : Nat), 255 < n →
    (AsmLine.mk op a b (some n)).toInstr? = none

/-- R71: each pseudo-instruction's expansion, word, and meaning, when the host presents it with its port data. -/
def Obligations.PseudoInstructionsDoWhatTheTableSays : Prop :=
  (encode (pseudoExpansion .nop) = 0x0013#16 ∧ encode (pseudoExpansion .lda) = 0x0003#16 ∧
   encode (pseudoExpansion .clr) = 0x0031#16 ∧ encode (pseudoExpansion .dbl) = 0x0030#16 ∧
   encode (pseudoExpansion .sqr) = 0x0035#16 ∧ encode (pseudoExpansion .inc) = 0x0010#16 ∧
   encode (pseudoExpansion .dec) = 0x0011#16 ∧ encode (pseudoExpansion .not) = 0x0021#16) ∧
  pseudoExpansion .nop = .shl .acc 0#8 ∧ pseudoExpansion .lda = .shl .pa 0#8 ∧
  pseudoExpansion .clr = .sub .acc .acc ∧ pseudoExpansion .dbl = .add .acc .acc ∧
  pseudoExpansion .sqr = .mul .acc .acc ∧ pseudoExpansion .inc = .add .acc .pb ∧
  pseudoExpansion .dec = .sub .acc .pb ∧ pseudoExpansion .not = .sub .pa .acc ∧
  (pseudoPA .not = some MAX ∧ pseudoPB .inc = some ONE ∧ pseudoPB .dec = some ONE) ∧
  ∀ (p : Pseudo) (s : State) (x y : Word) (rest : List HostEvent),
    s.inbox = .command (assembledCommand (pseudoAssembled p) x y) :: rest →
    ∃ t, step s = .next t ∧ t.outputs = some ⟨t.acc, 0b00#2⟩ ∧
      (match p with
       | .nop => t.acc = s.acc
       | .lda => t.acc = x
       | .clr => t.acc = 0#256
       | .dbl => t.acc.toNat = 2 * s.acc.toNat % 2 ^ 256
       | .sqr => t.acc.toNat = s.acc.toNat ^ 2 % 2 ^ 256
       | .inc => t.acc.toNat = (s.acc.toNat + 1) % 2 ^ 256
       | .dec => (t.acc.toNat : Int) = ((s.acc.toNat : Int) - 1) % 2 ^ 256
       | .not => t.acc = ~~~s.acc)

/-! ## Datapath -/

/-- R81: the limbs of the sum, with the carry of the lower limbs going into the higher, and the value law (the spec marks
the value law as derived). -/
def Obligations.AdderAddsByLimbs : Prop :=
  ∀ a b : Word,
    lo (add256 a b) = lo a + lo b ∧
    hi (add256 a b) = (hi a + hi b) + (if 2 ^ 128 ≤ (lo a).toNat + (lo b).toNat then 1#128 else 0#128) ∧
    (add256 a b).toNat = (a.toNat + b.toNat) % 2 ^ 256

/-- R82: the adder is commutative and associative, has `ZERO` as identity, and wraps at `MAX`. -/
def Obligations.AdderLaws : Prop :=
  (∀ a b : Word, add256 a b = add256 b a) ∧
  (∀ a b c : Word, add256 (add256 a b) c = add256 a (add256 b c)) ∧
  (∀ a : Word, add256 a ZERO = a) ∧ add256 MAX ONE = ZERO

/-- R85: the limbs of the difference, with the borrow of the lower limbs taken from the higher (in either order), and
the value law (the spec marks the value law as derived). -/
def Obligations.SubtractorSubtractsByLimbs : Prop :=
  ∀ a b : Word,
    let bw : Limb := if (lo a).toNat < (lo b).toNat then 1#128 else 0#128
    lo (sub256 a b) = lo a - lo b ∧
    hi (sub256 a b) = (hi a - bw) - hi b ∧ hi (sub256 a b) = (hi a - hi b) - bw ∧
    ((sub256 a b).toNat : Int) = ((a.toNat : Int) - (b.toNat : Int)) % 2 ^ 256

/-- R86: the negator is `sub256(MAX, a)` plus `ONE`; the subtraction is the complement and borrows in neither limb; the
value law (the spec marks the complement and the value law as derived). -/
def Obligations.NegatorIsComplementPlusOne : Prop :=
  ∀ a : Word,
    neg256 a = add256 (sub256 MAX a) ONE ∧ sub256 MAX a = ~~~a ∧
    borrowN 128 (lo MAX) (lo a) = 0#1 ∧ borrowN 128 (hi MAX) (hi a) = 0#1 ∧
    (neg256 a).toNat = (2 ^ 256 - a.toNat) % 2 ^ 256

/-- R87: subtraction agrees with adding the negation, and the subtractor's and negator's laws. -/
def Obligations.SubtractionAgreesWithNegation : Prop :=
  (∀ a b : Word, sub256 a b = add256 a (neg256 b)) ∧
  (∀ a : Word, sub256 a a = ZERO) ∧ sub256 ZERO ONE = MAX ∧
  neg256 ZERO = ZERO ∧ (∀ a : Word, neg256 (neg256 a) = a) ∧
  (∀ a : Word, add256 a (neg256 a) = ZERO) ∧ neg256 ONE = MAX

/-- The value laws of R110 and R111, which the spec marks as derived: the left shift multiplies mod `2^256`, the right
shift divides and rounds down. -/
def Obligations.ShiftersMultiplyAndDivide : Prop :=
  ∀ (a : Word) (n : Count),
    (shl256 a n).toNat = a.toNat * 2 ^ n.toNat % 2 ^ 256 ∧ (shr256 a n).toNat = a.toNat / 2 ^ n.toNat

/-- R114: the zero count, discarded bits, and the two round trips (the spec marks the second one as derived). -/
def Obligations.ShifterLaws : Prop :=
  ∀ (a : Word) (n : Count),
    shl256 a 0#8 = a ∧ shr256 a 0#8 = a ∧
    (∀ i : Nat, i < 256 → (shl256 a n).getLsbD i = (decide (n.toNat ≤ i) && a.getLsbD (i - n.toNat))) ∧
    (∀ i : Nat, (shr256 a n).getLsbD i = a.getLsbD (i + n.toNat)) ∧
    (shr256 (shl256 a n) n).toNat = a.toNat % 2 ^ (256 - n.toNat) ∧
    (shl256 (shr256 a n) n).toNat = a.toNat - a.toNat % 2 ^ n.toNat

/-- R116, which the spec marks as derived from R110 and R111: the counts 127, 128 and 255. -/
def Obligations.ShiftsAtTheLimbBoundary : Prop :=
  ∀ a : Word,
    shl256 a 128#8 = W (lo a) 0#128 ∧ shr256 a 128#8 = W 0#128 (hi a) ∧
    shl256 a 127#8 = W ((hi a <<< 127) ||| (lo a >>> 1)) (lo a <<< 127) ∧
    shr256 a 127#8 = W (hi a >>> 127) ((lo a >>> 127) ||| (hi a <<< 1)) ∧
    shl256 a 255#8 = W (BitVec.ofNat 128 ((lo a).toNat % 2 * 2 ^ 127)) 0#128 ∧
    shr256 a 255#8 = W 0#128 (BitVec.ofNat 128 ((hi a).toNat / 2 ^ 127))

/-- R130: the native product is exact, and at most `(2^64 - 1)^2 < 2^128`. -/
def Obligations.NativeProductIsExact : Prop :=
  ∀ x y : HalfLimb, (mul64 x y).toNat = x.toNat * y.toNat ∧ x.toNat * y.toNat ≤ (2 ^ 64 - 1) ^ 2 ∧
    (2 ^ 64 - 1) ^ 2 < 2 ^ 128

/-- R132: `mul128` satisfies the rule's recursive equation for every input, with no bound on the recursion written
in. -/
def Obligations.KaratsubaRecursionHolds : Prop :=
  ∀ x y : Limb, mul128 x y =
    if x.toNat < 2 ^ 64 ∧ y.toNat < 2 ^ 64 then W 0#128 (mul64 (limbLo x) (limbLo y))
    else
      let l := mul64 (limbLo x) (limbLo y)
      let h := mul64 (limbHi x) (limbHi y)
      let mid := mul128 ((limbHi x).setWidth 128 + (limbLo x).setWidth 128)
        ((limbHi y).setWidth 128 + (limbLo y).setWidth 128)
      let t := sub256 mid (W 0#128 l)
      let cross := sub256 t (W 0#128 h)
      add256 (W h l) (shl256 cross 64#8)

/-- R134, which the spec marks as derived from R130 and R132: `mid` and `cross` are exact and bounded, no subtraction,
shift or addition of the general path wraps, and `mul128` is the exact product. -/
def Obligations.Mul128IsExact : Prop :=
  ∀ x y : Limb,
    let xh := (limbHi x).toNat
    let xl := (limbLo x).toNat
    let yh := (limbHi y).toNat
    let yl := (limbLo y).toNat
    let mid := mul128 (halfSum x) (halfSum y)
    let cross := crossTerm mid (mul64 (limbLo x) (limbLo y)) (mul64 (limbHi x) (limbHi y))
    mid.toNat = (halfSum x).toNat * (halfSum y).toNat ∧
    mid.toNat = xh * yh + xl * yl + (xh * yl + xl * yh) ∧ mid.toNat < 2 ^ 130 ∧
    xl * yl + xh * yh ≤ mid.toNat ∧
    cross.toNat = xh * yl + xl * yh ∧ cross.toNat < 2 ^ 129 ∧
    (x = MAX_128 → y = MAX_128 → cross = W 1#128 0xfffffffffffffffc0000000000000002#128) ∧
    (shl256 cross 64#8).toNat = cross.toNat * 2 ^ 64 ∧ cross.toNat * 2 ^ 64 < 2 ^ 193 ∧
    xh * yh * 2 ^ 128 + xl * yl + cross.toNat * 2 ^ 64 = x.toNat * y.toNat ∧ x.toNat * y.toNat < 2 ^ 256 ∧
    (mul128 x y).toNat = x.toNat * y.toNat

/-- R135, with the width fact of R133 it rests on: the sums are at most `2^65 - 2`, and the sums of the sums fit in 64
bits, so a third invocation takes the fast path (the spec marks both rules as derived). -/
def Obligations.ThirdInvocationIsFast : Prop :=
  ∀ x y : Limb,
    (halfSum x).toNat ≤ 2 ^ 65 - 2 ∧ (halfSum x).toNat = (limbHi x).toNat + (limbLo x).toNat ∧
    (x.toNat ≤ 2 ^ 65 - 2 → (limbHi x).toNat ≤ 1) ∧
    (halfSum (halfSum x)).toNat < 2 ^ 64 ∧
    bothFit64 (halfSum (halfSum x)) (halfSum (halfSum y)) = true

/-- R136 and the count of R139, of the multiplier that counts each native multiplication where it performs it: its
products are those of `mul64`, `mul128` and `mul256`; a `mul128` product takes 1 native multiplication on the fast path,
3 when its recursive call is fast, 5 when it is general; `mul256` takes those of its three products, at most 15 (the
spec marks the counts as derived). -/
def Obligations.NativeMultiplicationCounts : Prop :=
  (∀ x y : HalfLimb, (countedMul64 x y).value = mul64 x y ∧ (countedMul64 x y).natives = 1) ∧
  (∀ x y : Limb, (countedMul128 x y).value = mul128 x y ∧
    (countedMul128 x y).natives =
      if bothFit64 x y then 1 else if bothFit64 (halfSum x) (halfSum y) then 3 else 5) ∧
  (∀ a b : Word, (countedMul256 a b).value = mul256 a b ∧
    (countedMul256 a b).natives = (countedMul128 (lo a) (lo b)).natives + (countedMul128 (lo a) (hi b)).natives +
      (countedMul128 (hi a) (lo b)).natives ∧
    (countedMul256 a b).natives ≤ 15) ∧
  (countedMul256 MAX MAX).natives = 15

/-- R137 with its value law: the multiplier is the sum of three `mul128` products at their offsets, and its value is
the product mod `2^256` (the spec marks the value law as derived). -/
def Obligations.Mul256IsProductModulo : Prop :=
  ∀ a b : Word,
    mul256 a b = add256 (add256 (mul128 (lo a) (lo b)) (shl256 (mul128 (lo a) (hi b)) 128#8))
      (shl256 (mul128 (hi a) (lo b)) 128#8) ∧
    mul256 a b = add256 (mul128 (lo a) (lo b))
      (add256 (shl256 (mul128 (lo a) (hi b)) 128#8) (shl256 (mul128 (hi a) (lo b)) 128#8)) ∧
    (mul256 a b).toNat = a.toNat * b.toNat % 2 ^ 256

/-- R140: the multiplier's laws. -/
def Obligations.MultiplierLaws : Prop :=
  (∀ a b : Word, mul256 a b = mul256 b a) ∧
  (∀ a b c : Word, mul256 (mul256 a b) c = mul256 a (mul256 b c)) ∧
  (∀ a : Word, mul256 a ONE = a) ∧ (∀ a : Word, mul256 a ZERO = ZERO) ∧
  mul256 MAX MAX = ONE ∧ mul256 (W 1#128 1#128) (W 1#128 1#128) = W 2#128 1#128

/-- R171: equality is equality of both limbs, order is lexicographic on the limbs; they are equality and unsigned
order of the values (the spec marks the last as derived). -/
def Obligations.ComparatorComparesValues : Prop :=
  ∀ a b : Word,
    (eq256 a b = 1#1 ↔ (hi a = hi b ∧ lo a = lo b)) ∧
    (ltu256 a b = 1#1 ↔ ((hi a).toNat < (hi b).toNat ∨ (hi a = hi b ∧ (lo a).toNat < (lo b).toNat))) ∧
    (eq256 a b = 1#1 ↔ a = b) ∧ (ltu256 a b = 1#1 ↔ a.toNat < b.toNat)

/-- R173, which the spec marks as derived: trichotomy, irreflexivity, transitivity, the extremes, and the recovery of
carry and borrow. -/
def Obligations.ComparatorLaws : Prop :=
  (∀ a b : Word, (ltu256 a b).toNat + (eq256 a b).toNat + (ltu256 b a).toNat = 1) ∧
  (∀ a : Word, ltu256 a a = 0#1) ∧
  (∀ a b c : Word, ltu256 a b = 1#1 → ltu256 b c = 1#1 → ltu256 a c = 1#1) ∧
  (∀ a : Word, ltu256 ZERO a = 1#1 ↔ a ≠ ZERO) ∧ (∀ a : Word, ltu256 a MAX = 1#1 ↔ a ≠ MAX) ∧
  (∀ a b : Word, ltu256 (add256 a b) a = carryN 256 a b 0#256) ∧
  (∀ a b : Word, ltu256 a b = borrowN 256 a b)

/-- R27: port values built from narrower unsigned values and from pairs keep the value, with `higher` zero or the
pair's, and do not depend on the source's width. -/
def Obligations.OperandConstructionKeepsValue : Prop :=
  (∀ (k : Nat) (h : k ≤ 128) (u : BitVec k),
    (ofNative k h u).toNat = u.toNat ∧ hi (ofNative k h u) = 0#128 ∧ ofNative k h u = u.setWidth 256) ∧
  (∀ (k m : Nat) (hk : k ≤ 128) (hm : m ≤ 128) (x : BitVec k) (y : BitVec m),
    hi (ofPair k m hk hm x y) = x.setWidth 128 ∧ lo (ofPair k m hk hm x y) = y.setWidth 128 ∧
    (ofPair k m hk hm x y).toNat = x.toNat * 2 ^ 128 + y.toNat) ∧
  ∀ (k m : Nat) (hk : k ≤ 128) (hm : m ≤ 128) (u : BitVec k) (v : BitVec m), u.toNat = v.toNat →
    ofNative k hk u = ofNative m hm v

/-- R26: a value is its pair of limbs and no other pair, and every pair is a value. -/
def Obligations.LimbPairIsUnique : Prop :=
  (∀ v : Word, v.toNat = (hi v).toNat * 2 ^ 128 + (lo v).toNat ∧ v.toNat ≤ 2 ^ 256 - 1) ∧
  (∀ (v : Word) (h l : Limb), v.toNat = h.toNat * 2 ^ 128 + l.toNat → h = hi v ∧ l = lo v) ∧
  (∀ a b : Word, a = b ↔ (hi a = hi b ∧ lo a = lo b)) ∧
  ∀ h l : Limb, ∃ v : Word, v.toNat = h.toNat * 2 ^ 128 + l.toNat

/-! ## Commands -/

/-- R80: ADD, its row, effect, frame, corner cases and example. -/
def Obligations.AddCommand : Prop :=
  EncodedByRow 0x0000#16 0xFFCF#16 (fun w => .add (aOfWord w) (bOfWord w)) ∧
  (∀ (a : SrcA) (b : SrcB) (s : State), ∃ t, exec (.add a b) s = .next t ∧
    t.acc = add256 (opA a s) (opB b s) ∧
    t.acc.toNat = ((opA a s).toNat + (opB b s).toNat) % 2 ^ 256 ∧ CompletedFrom s t) ∧
  (add256 MAX ONE = ZERO ∧ add256 (W 0#128 MAX_128) ONE = W 1#128 0#128 ∧
   add256 MAX MAX = W MAX_128 (MAX_128 - 1#128) ∧
   add256 (W 0x80000000000000000000000000000000#128 0#128) (W 0x80000000000000000000000000000000#128 0#128) = ZERO ∧
   (∀ s : State, ∃ t, exec (.add .acc .acc) s = .next t ∧ t.acc.toNat = 2 * s.acc.toNat % 2 ^ 256)) ∧
  CommandWrites 0x0000#16 MAX ONE ZERO

/-- R84: SUB, its row, effect, frame, corner cases and example. -/
def Obligations.SubCommand : Prop :=
  EncodedByRow 0x0001#16 0xFFCF#16 (fun w => .sub (aOfWord w) (bOfWord w)) ∧
  (∀ (a : SrcA) (b : SrcB) (s : State), ∃ t, exec (.sub a b) s = .next t ∧
    t.acc = sub256 (opA a s) (opB b s) ∧
    (t.acc.toNat : Int) = (((opA a s).toNat : Int) - ((opB b s).toNat : Int)) % 2 ^ 256 ∧ CompletedFrom s t) ∧
  (sub256 ZERO ONE = MAX ∧ (∀ a : Word, sub256 a a = ZERO) ∧
   (∀ s : State, ∃ t, exec (.sub .acc .acc) s = .next t ∧ t.acc = ZERO) ∧
   sub256 (W 1#128 0#128) ONE = W 0#128 MAX_128 ∧ sub256 ZERO MAX = ONE ∧
   (∀ s : State, ∃ t, exec (.sub .pa .acc) s = .next t ∧ t.acc = sub256 s.ports.pa s.acc) ∧
   (∀ s : State, ∃ t, exec (.sub .acc .pb) s = .next t ∧ t.acc = sub256 s.acc s.ports.pb)) ∧
  CommandWrites 0x0001#16 ZERO ONE MAX

/-- R88: NEG, its row, effect, frame, corner cases and example; `PB` is ignored. -/
def Obligations.NegCommand : Prop :=
  EncodedByRow 0x0002#16 0xFFEF#16 (fun w => .neg (aOfWord w)) ∧
  (∀ (a : SrcA) (s : State), ∃ t, exec (.neg a) s = .next t ∧ t.acc = neg256 (opA a s) ∧
    t.acc.toNat = (2 ^ 256 - (opA a s).toNat) % 2 ^ 256 ∧ CompletedFrom s t) ∧
  (neg256 ZERO = ZERO ∧ neg256 ONE = MAX ∧ neg256 MAX = ONE ∧
   (∀ a : Word, (a ≠ ZERO ∧ neg256 a = a) ↔ a = W 0x80000000000000000000000000000000#128 0#128) ∧
   neg256 (W 1#128 0#128) = W MAX_128 0#128 ∧
   (∀ s t u : State, exec (.neg .acc) s = .next t → exec (.neg .acc) t = .next u → u.acc = s.acc)) ∧
  ∀ pb : Word, CommandWrites 0x0002#16 ONE pb MAX

/-- R113: SHL, its row, effect, frame, corner cases and example; `PB` is ignored. -/
def Obligations.ShlCommand : Prop :=
  EncodedByRow 0x0003#16 0x00EF#16 (fun w => .shl (aOfWord w) (countOfWord w)) ∧
  (∀ (a : SrcA) (n : Count) (s : State), ∃ t, exec (.shl a n) s = .next t ∧ t.acc = shl256 (opA a s) n ∧
    t.acc.toNat = (opA a s).toNat * 2 ^ n.toNat % 2 ^ 256 ∧ CompletedFrom s t) ∧
  (∀ a : Word, shl256 a 0#8 = a ∧ shl256 a 128#8 = W (lo a) 0#128 ∧
    (shl256 a 255#8).toNat = a.toNat % 2 * 2 ^ 255) ∧
  (∀ (n : Count) (s : State), ∃ t, exec (.shl .acc n) s = .next t ∧ t.acc = shl256 s.acc n) ∧
  ∀ pb : Word, CommandWrites 0xFF03#16 ONE pb (W 0x80000000000000000000000000000000#128 0#128)

/-- R115: SHR, its row, effect, frame, corner cases and example; `PB` is ignored. -/
def Obligations.ShrCommand : Prop :=
  EncodedByRow 0x0004#16 0x00EF#16 (fun w => .shr (aOfWord w) (countOfWord w)) ∧
  (∀ (a : SrcA) (n : Count) (s : State), ∃ t, exec (.shr a n) s = .next t ∧ t.acc = shr256 (opA a s) n ∧
    t.acc.toNat = (opA a s).toNat / 2 ^ n.toNat ∧ CompletedFrom s t) ∧
  (∀ a : Word, shr256 a 0#8 = a ∧ shr256 a 128#8 = W 0#128 (hi a) ∧
    (shr256 a 255#8).toNat = a.toNat / 2 ^ 255) ∧
  shr256 (W 0x80000000000000000000000000000000#128 0#128) 1#8 = W 0x40000000000000000000000000000000#128 0#128 ∧
  ∀ pb : Word, CommandWrites 0x8004#16 (W MAX_128 0#128) pb (W 0#128 MAX_128)

/-- R138: MUL, its row, effect, frame, corner cases and example. -/
def Obligations.MulCommand : Prop :=
  EncodedByRow 0x0005#16 0xFFCF#16 (fun w => .mul (aOfWord w) (bOfWord w)) ∧
  (∀ (a : SrcA) (b : SrcB) (s : State), ∃ t, exec (.mul a b) s = .next t ∧
    t.acc = mul256 (opA a s) (opB b s) ∧
    t.acc.toNat = (opA a s).toNat * (opB b s).toNat % 2 ^ 256 ∧ CompletedFrom s t) ∧
  (mul256 MAX MAX = ONE ∧ mul256 (W 1#128 1#128) (W 1#128 1#128) = W 2#128 1#128 ∧
   mul256 (W MAX_128 0#128) (W MAX_128 0#128) = ZERO ∧
   mul256 (W MAX_128 1#128) (W MAX_128 1#128) = W (MAX_128 - 1#128) 1#128 ∧
   mul256 (W 0x80000000000000000000000000000000#128 0#128) 2#256 = ZERO ∧
   (∀ s : State, ∃ t, exec (.mul .acc .acc) s = .next t ∧ t.acc.toNat = s.acc.toNat ^ 2 % 2 ^ 256)) ∧
  CommandWrites 0x0005#16 (W 1#128 1#128) (W 1#128 1#128) (W 2#128 1#128)

/-- R170 with the result form of R174: EQ, its row, effect, frame, corner cases and example. -/
def Obligations.EqCommand : Prop :=
  EncodedByRow 0x0006#16 0xFFCF#16 (fun w => .eq (aOfWord w) (bOfWord w)) ∧
  (∀ (a : SrcA) (b : SrcB) (s : State), ∃ t, exec (.eq a b) s = .next t ∧
    t.acc = (eq256 (opA a s) (opB b s)).setWidth 256 ∧
    t.acc = (if opA a s = opB b s then ONE else ZERO) ∧ CompletedFrom s t) ∧
  (∀ s : State, ∃ t, exec (.eq .acc .acc) s = .next t ∧ t.acc = ONE) ∧
  (∀ a : Word, eq256 a (a ^^^ 1#256) = 0#1) ∧ eq256 (W 1#128 0#128) (W 0#128 MAX_128) = 0#1 ∧
  CommandWrites 0x0006#16 MAX MAX ONE

/-- R172 with the result form of R174: LTU, its row, effect, frame, corner cases and example. -/
def Obligations.LtuCommand : Prop :=
  EncodedByRow 0x0007#16 0xFFCF#16 (fun w => .ltu (aOfWord w) (bOfWord w)) ∧
  (∀ (a : SrcA) (b : SrcB) (s : State), ∃ t, exec (.ltu a b) s = .next t ∧
    t.acc = (ltu256 (opA a s) (opB b s)).setWidth 256 ∧
    t.acc = (if (opA a s).toNat < (opB b s).toNat then ONE else ZERO) ∧ CompletedFrom s t) ∧
  (∀ s : State, ∃ t, exec (.ltu .acc .acc) s = .next t ∧ t.acc = ZERO) ∧
  (ltu256 (W 1#128 0#128) (W 0#128 MAX_128) = 0#1 ∧ ltu256 (W 5#128 7#128) (W 5#128 8#128) = 1#1 ∧
   ltu256 ZERO MAX = 1#1 ∧ ltu256 MAX ZERO = 0#1 ∧
   ltu256 (W 0x7fffffffffffffffffffffffffffffff#128 MAX_128) (W 0x80000000000000000000000000000000#128 0#128) = 1#1) ∧
  CommandWrites 0x0007#16 ZERO MAX ONE

/-- R22: a command that names `ACC` as an operand reads the value from before the command, with the rule's three
examples. -/
def Obligations.OperandsAreReadBeforeAccIsWritten : Prop :=
  (∀ (i : Instr) (s : State), ∃ t, exec i s = .next t ∧ t.acc = valueOf i s.acc s.ports.pa s.ports.pb) ∧
  ∀ s : State,
    (∃ t, exec (.add .acc .acc) s = .next t ∧ t.acc.toNat = 2 * s.acc.toNat % 2 ^ 256) ∧
    (∃ t, exec (.sub .acc .acc) s = .next t ∧ t.acc = ZERO) ∧
    ∃ t, exec (.mul .acc .acc) s = .next t ∧ t.acc.toNat = s.acc.toNat ^ 2 % 2 ^ 256

/-! ## Step, responses, reset -/

/-- A step on a command takes it from the host's events, samples its ports, and is `exec` of what its word decodes to
(R36, R48). Taking the host's events one by one from `inbox` is the model's own convention (log entry 1). -/
def Obligations.StepRunsTheDecodedCommand : Prop :=
  ∀ (s : State) (c : Command) (rest : List HostEvent) (i : Instr),
    s.inbox = .command c :: rest → decode c.cmd = .legal i → i.wellFormed = true →
    step s = exec i { s with inbox := rest, ports := c }

/-- The word the host of this model places is the one the next step runs (log entry 1: the model's own convention). -/
def Obligations.PlacedWordIsRunNext : Prop :=
  ∀ (s : State) (w : Nat) (i : Instr), decodeTableWord 16 w = some i →
    step (s.withFetchWord 16 w) = exec i { s with ports := { s.ports with cmd := BitVec.ofNat 16 w } }

/-- R181: an illegal command does not write `ACC` and answers `(ACC, code)`; it has no other effect; and the next
command is answered as if the illegal one had not been there. -/
def Obligations.IllegalCommandOnlyAnswers : Prop :=
  ∀ (s : State) (c : Command) (rest : List HostEvent) (code : Status),
    s.inbox = .command c :: rest → decode c.cmd = .illegal code →
    step s = .next { s with inbox := rest, ports := c, outputs := some ⟨s.acc, code⟩,
                            log := s.log ++ [⟨s.acc, code⟩] } ∧
    ∀ (d : Command) (rest' : List HostEvent), rest = .command d :: rest' →
      ∃ t u, step { s with inbox := rest } = .next t ∧ Sys2Proof.core.run 2 s = .next u ∧
        u.acc = t.acc ∧ u.outputs = t.outputs ∧ u.inbox = t.inbox

/-- R183: every legal command completes with status `00`, whatever its operands. -/
def Obligations.LegalCommandsRaiseNothing : Prop :=
  ∀ (i : Instr) (s : State), ∃ t, exec i s = .next t ∧ t.outputs = some ⟨t.acc, 0b00#2⟩

/-- The step is total and the machine never gets stuck, from any state and for any number of steps (R36, R196). With no
event left the step is idle: R36 gives no such step, and that the model has one, which keeps the step total, is the
model's own convention (log entry 5). So a run longer than the host's events goes on by that convention alone. -/
def Obligations.MachineNeverGetsStuck : Prop :=
  (∀ s : State, ∃ t, step s = .next t) ∧ ∀ (k : Nat) (s : State), RunsFor k s

/-- R25: after every command `RESULT` is `ACC`; a legal command answers `00` with the value it wrote, an illegal one a
nonzero status with `ACC` unchanged. -/
def Obligations.ResultIsAccAfterEveryCommand : Prop :=
  ∀ (s : State) (c : Command) (rest : List HostEvent), s.inbox = .command c :: rest →
    ∃ t status, step s = .next t ∧ t.outputs = some ⟨t.acc, status⟩ ∧
      (∀ i, decode c.cmd = .legal i → status = 0b00#2 ∧ t.acc = valueOf i s.acc c.pa c.pb) ∧
      ∀ code, decode c.cmd = .illegal code → status = code ∧ code ≠ 0b00#2 ∧ t.acc = s.acc

/-- The only ways to write `ACC` are a legal command and reset (R21, R189). -/
def Obligations.OnlyLegalCommandsAndResetWriteAcc : Prop :=
  ∀ s t : State, step s = .next t → t.acc ≠ s.acc →
    (∃ c rest i, s.inbox = .command c :: rest ∧ decode c.cmd = .legal i) ∨
    (∃ rest, s.inbox = .reset :: rest) ∨ ∃ c rest, s.inbox = .cutOff c :: rest

/-- R200: reset writes `ZERO` to `ACC` and reads no port; a command accepted and not answered writes nothing and gets no
response. That `log` keeps the responses already given is the model's own choice (log entry 4), and that the undefined
outputs are `none` is its own form (log entry 2). -/
def Obligations.ResetClearsAccAndDiscardsCommand : Prop :=
  ∀ (s : State) (rest : List HostEvent),
    (s.inbox = .reset :: rest → step s = .next { s with inbox := rest, acc := 0#256, outputs := none }) ∧
    ∀ c : Command, s.inbox = .cutOff c :: rest →
      step s = .next { s with inbox := rest, ports := c, acc := 0#256, outputs := none }

/-- R35: right after reset `ACC` is `ZERO` and the outputs carry no response, and a reset event leaves the same. That
"no defined value" is `none` is the model's own form (log entry 2). -/
def Obligations.ResetState : Prop :=
  State.reset.acc = ZERO ∧ State.reset.outputs = none ∧
  ∀ s : State, (resetBlock s).acc = State.reset.acc ∧ (resetBlock s).outputs = State.reset.outputs

/-- With no event from the host, the block holds its state (R195). That a step then changes nothing is the model's own
convention (log entry 5). -/
def Obligations.IdleBlockHoldsItsState : Prop :=
  ∀ s : State, s.inbox = [] → step s = .next s

/-- Every step keeps the agreement of outputs, `ACC` and observation, from every state that has it, reachable or not
(R25, R180). The idle step among them is the model's own convention (log entry 5), a `log` kept over a reset event its
choice (log entry 4), and `none` for the undefined outputs its form (log entry 2). -/
def Obligations.StepKeepsOutputsAgree : Prop :=
  ∀ s t : State, OutputsAgree s → step s = .next t → OutputsAgree t

/-- The agreement holds right after reset. -/
def Obligations.OutputsAgreeAfterReset : Prop := OutputsAgree State.reset

/-- R24: which operand each bit selects, and that a port that is not selected or not read changes neither result nor
status, legal or illegal. -/
def Obligations.UnreadPortsNeverMatter : Prop :=
  (∀ (w : CmdWord) (s : State),
    opA (aOfWord w) s = (if w.getLsbD 4 then s.acc else s.ports.pa) ∧
    opB (bOfWord w) s = (if w.getLsbD 5 then s.acc else s.ports.pb)) ∧
  ∀ (s : State) (w : CmdWord) (pa pb pa' pb' : Word) (rest : List HostEvent),
    (∀ i, decode w = .legal i → (readsPA i = true → pa = pa') ∧ (readsPB i = true → pb = pb')) →
    ∃ t t', step { s with inbox := .command ⟨w, pa, pb⟩ :: rest } = .next t ∧
      step { s with inbox := .command ⟨w, pa', pb'⟩ :: rest } = .next t' ∧
      t.acc = t'.acc ∧ t.outputs = t'.outputs ∧ t.log = t'.log ∧ t.inbox = t'.inbox

/-- A command that does not read `ACC` gives the same result and response whatever `ACC` holds, so it is idempotent
(R46, R201). -/
def Obligations.PortOnlyCommandForgetsAcc : Prop :=
  (∀ (s : State) (v : Word) (c : Command) (rest : List HostEvent) (i : Instr),
    s.inbox = .command c :: rest → decode c.cmd = .legal i → readsAcc i = false →
    ∃ t t', step s = .next t ∧ step { s with acc := v } = .next t' ∧ t.acc = t'.acc ∧ t.outputs = t'.outputs) ∧
  ∀ (s : State) (c : Command) (rest : List HostEvent) (i : Instr),
    s.inbox = .command c :: .command c :: rest → decode c.cmd = .legal i → readsAcc i = false →
    ∃ t u, step s = .next t ∧ step t = .next u ∧ u.acc = t.acc ∧ u.outputs = t.outputs

/-- `ACC` is all that a run carries from one command to the next: two states with the same `ACC` and the same host
events, whatever their ports, outputs and past, run alike for any number of steps: equal `ACC`, equal events left, the
same responses added (R20, R31, R33). The outputs are equal where they were equal to begin with or an event has been
taken. That `log` is kept over a reset event is the model's own choice (log entry 4), the events of `inbox` are its own
form (log entry 1), and the idle steps after the last event are its own convention (log entry 5). -/
def Obligations.OnlyAccIsCarriedOver : Prop :=
  ∀ (k : Nat) (s s' : State), s.acc = s'.acc → s.inbox = s'.inbox →
    ∃ t t' added, Sys2Proof.core.run k s = .next t ∧ Sys2Proof.core.run k s' = .next t' ∧
      t.acc = t'.acc ∧ t.inbox = t'.inbox ∧ t.log = s.log ++ added ∧ t'.log = s'.log ++ added ∧
      ((s.outputs = s'.outputs ∨ (0 < k ∧ s.inbox ≠ [])) → t.outputs = t'.outputs)

/-- The datapath against the value level, for every command (R63, R141): `exec` writes the operation column of the opcode
map and completes. -/
def Obligations.DatapathMeetsTheValueLevel : Prop :=
  ∀ (i : Instr) (s : State), ∃ t, exec i s = .next t ∧
    t.acc = valueOf i s.acc s.ports.pa s.ports.pb ∧ CompletedFrom s t

/-- R48: commands take effect one at a time in the order they are accepted, each on the `ACC` the one before it left; the
final `ACC` is the left fold over the list. The observation is that of R208, with the responses in order, and the
host-side index is that of R29, which counts the commands answered, legal or illegal. That the events not reached stay
in `inbox` is the model's own form (log entry 1). -/
def Obligations.RunIsTheLeftFoldOfItsCommands : Prop :=
  ∀ (cs : List Command) (s : State) (rest : List HostEvent), s.inbox = cs.map HostEvent.command ++ rest →
    ∃ t, Sys2Proof.core.run cs.length s = .next t ∧
      observe t = (foldAcc s.acc cs, s.log ++ answers s.acc cs) ∧ t.inbox = rest ∧
      index t = index s + cs.length

/-- The premise of R196: the responses to a list of commands all have status `00` exactly when every command word is
legal, and no answer is dropped. -/
def Obligations.AllStatusesOkIffAllLegal : Prop :=
  ∀ (acc : Word) (cs : List Command),
    (answers acc cs).length = cs.length ∧
    (AllOk (answers acc cs) ↔ ∀ c ∈ cs, ∃ i, decode c.cmd = .legal i)

end
end

