-- ==== Sys2Proof/Laws/Limbs.lean ====
section
/-! SUPPORT. Limbs and constants as numbers, and the signals between limbs: what the datapath's proofs cite instead of
unfolding bit fields. -/

namespace Sys2Proof.Machine

@[simp] theorem W_toNat (h l : Limb) : (W h l).toNat = h.toNat * 2 ^ 128 + l.toNat := by
  have hl := l.isLt
  simp only [W, BitVec.toNat_append]
  rw [← Nat.shiftLeft_add_eq_or_of_lt hl, Nat.shiftLeft_eq]

theorem hi_toNat (v : Word) : (hi v).toNat = v.toNat / 2 ^ 128 := by
  have hv := v.isLt
  simp only [hi, BitVec.extractLsb'_toNat, Nat.shiftRight_eq_div_pow]
  omega

theorem lo_toNat (v : Word) : (lo v).toNat = v.toNat % 2 ^ 128 := by
  simp [lo, BitVec.extractLsb'_toNat]

/-- A value is its two limbs (R11, R26). -/
theorem toNat_eq_limbs (v : Word) : v.toNat = (hi v).toNat * 2 ^ 128 + (lo v).toNat := by
  rw [hi_toNat, lo_toNat]
  omega

@[simp] theorem hi_W (h l : Limb) : hi (W h l) = h := by
  apply BitVec.eq_of_toNat_eq
  have hl := l.isLt
  rw [hi_toNat, W_toNat]
  omega

@[simp] theorem lo_W (h l : Limb) : lo (W h l) = l := by
  apply BitVec.eq_of_toNat_eq
  have hl := l.isLt
  rw [lo_toNat, W_toNat]
  omega

@[simp] theorem W_hi_lo (v : Word) : W (hi v) (lo v) = v := by
  apply BitVec.eq_of_toNat_eq
  rw [W_toNat, ← toNat_eq_limbs]

/-- Two values with equal limbs are equal (R26). -/
theorem eq_of_limbs {a b : Word} (h : hi a = hi b) (l : lo a = lo b) : a = b := by
  rw [← W_hi_lo a, ← W_hi_lo b, h, l]

/-- One bit of a pair of limbs. -/
theorem W_getLsbD (h l : Limb) (i : Nat) :
    (W h l).getLsbD i = if i < 128 then l.getLsbD i else h.getLsbD (i - 128) := by
  rw [W, BitVec.getLsbD_append]

@[simp] theorem ZERO_toNat : ZERO.toNat = 0 := by decide
@[simp] theorem ONE_toNat : ONE.toNat = 1 := by decide
@[simp] theorem MAX_toNat : MAX.toNat = 2 ^ 256 - 1 := by decide

/-- The limb sum is exact in 129 bits (R83). -/
theorem limbSum_toNat (a b : Limb) : (limbSum a b).toNat = a.toNat + b.toNat := by
  have ha := a.isLt
  have hb := b.isLt
  simp only [limbSum, BitVec.toNat_add, BitVec.toNat_setWidth]
  omega

/-- The carry between the limbs, as a number (R81). -/
theorem limbCarry_toNat (a b : Limb) : (limbCarry a b).toNat = (a.toNat + b.toNat) / 2 ^ 128 := by
  have ha := a.isLt
  have hb := b.isLt
  simp only [limbCarry, BitVec.extractLsb'_toNat, limbSum_toNat, Nat.shiftRight_eq_div_pow]
  omega

/-- The borrow of a subtraction, as a number (R13). -/
theorem borrowN_toNat (n : Nat) (a b : BitVec n) :
    (borrowN n a b).toNat = if a.toNat < b.toNat then 1 else 0 := by
  unfold borrowN
  split <;> rfl

end Sys2Proof.Machine
end

