-- ==== Sys2Proof/Laws/State.lean ====
section
/-! SUPPORT. One lemma per field per update of the state. -/

namespace Sys2Proof.Machine

@[simp] theorem accept_acc (c : Command) (s : State) : (accept c s).acc = s.acc := rfl
@[simp] theorem accept_ports (c : Command) (s : State) : (accept c s).ports = c := rfl
@[simp] theorem accept_inbox (c : Command) (s : State) : (accept c s).inbox = s.inbox := rfl
@[simp] theorem accept_outputs (c : Command) (s : State) : (accept c s).outputs = s.outputs := rfl
@[simp] theorem accept_log (c : Command) (s : State) : (accept c s).log = s.log := rfl

@[simp] theorem writeAcc_acc (v : Word) (s : State) : (writeAcc v s).acc = v := rfl
@[simp] theorem writeAcc_ports (v : Word) (s : State) : (writeAcc v s).ports = s.ports := rfl
@[simp] theorem writeAcc_inbox (v : Word) (s : State) : (writeAcc v s).inbox = s.inbox := rfl
@[simp] theorem writeAcc_outputs (v : Word) (s : State) : (writeAcc v s).outputs = s.outputs := rfl
@[simp] theorem writeAcc_log (v : Word) (s : State) : (writeAcc v s).log = s.log := rfl

@[simp] theorem respond_acc (v : Word) (st : Status) (s : State) : (respond v st s).acc = s.acc := rfl
@[simp] theorem respond_ports (v : Word) (st : Status) (s : State) : (respond v st s).ports = s.ports := rfl
@[simp] theorem respond_inbox (v : Word) (st : Status) (s : State) : (respond v st s).inbox = s.inbox := rfl
@[simp] theorem respond_outputs (v : Word) (st : Status) (s : State) :
    (respond v st s).outputs = some ⟨v, st⟩ := rfl
@[simp] theorem respond_log (v : Word) (st : Status) (s : State) :
    (respond v st s).log = s.log ++ [⟨v, st⟩] := rfl

@[simp] theorem resetBlock_acc (s : State) : (resetBlock s).acc = ZERO := rfl
@[simp] theorem resetBlock_ports (s : State) : (resetBlock s).ports = s.ports := rfl
@[simp] theorem resetBlock_inbox (s : State) : (resetBlock s).inbox = s.inbox := rfl
@[simp] theorem resetBlock_outputs (s : State) : (resetBlock s).outputs = none := rfl
@[simp] theorem resetBlock_log (s : State) : (resetBlock s).log = s.log := rfl

@[simp] theorem presentWord_acc (w : CmdWord) (s : State) : (presentWord w s).acc = s.acc := rfl
@[simp] theorem presentWord_ports (w : CmdWord) (s : State) : (presentWord w s).ports = s.ports := rfl
@[simp] theorem presentWord_inbox (w : CmdWord) (s : State) :
    (presentWord w s).inbox = .command ⟨w, s.ports.pa, s.ports.pb⟩ :: s.inbox := rfl
@[simp] theorem presentWord_outputs (w : CmdWord) (s : State) : (presentWord w s).outputs = s.outputs := rfl
@[simp] theorem presentWord_log (w : CmdWord) (s : State) : (presentWord w s).log = s.log := rfl

end Sys2Proof.Machine
end

