-- ==== Sys2Proof/Laws/Ops.lean ====
section
/-! SUPPORT. What each shared operation can do, said once. -/

namespace Sys2Proof.Machine

/-- A completed command: `ACC` holds the value, the response is `(value, 00)`, the rest is unchanged. -/
theorem complete_next {v : Word} {s t : State} (h : complete v s = .next t) :
    t.acc = v ∧ t.outputs = some ⟨v, Status.ok⟩ ∧ t.log = s.log ++ [⟨v, Status.ok⟩] ∧
      t.ports = s.ports ∧ t.inbox = s.inbox := by
  simp only [complete, Host.Outcome.next.injEq] at h
  subst h
  simp

/-- An illegal command: `ACC` is kept, the response is `(ACC, code)`, the rest is unchanged. -/
theorem raiseIllegal_next {code : Status} {s t : State} (h : raiseIllegal code s = .next t) :
    t.acc = s.acc ∧ t.outputs = some ⟨s.acc, code⟩ ∧ t.log = s.log ++ [⟨s.acc, code⟩] ∧
      t.ports = s.ports ∧ t.inbox = s.inbox := by
  simp only [raiseIllegal, Host.Outcome.next.injEq] at h
  subst h
  simp

/-- Each command is `complete` of one value computed from the state before it. -/
theorem exec_is_complete (i : Instr) (s : State) : ∃ v, exec i s = complete v s := by
  cases i <;> exact ⟨_, rfl⟩

/-- Everything one step can do, by the head of `inbox`. -/
theorem step_cases (s : State) :
    (s.inbox = [] ∧ step s = .next s) ∨
    (∃ rest, s.inbox = .reset :: rest ∧ step s = .next (resetBlock { s with inbox := rest })) ∨
    (∃ c rest, s.inbox = .cutOff c :: rest ∧
      step s = .next (resetBlock (accept c { s with inbox := rest }))) ∨
    (∃ c rest i, s.inbox = .command c :: rest ∧ decode c.cmd = .legal i ∧
      step s = exec i (accept c { s with inbox := rest })) ∨
    (∃ c rest code, s.inbox = .command c :: rest ∧ decode c.cmd = .illegal code ∧
      step s = raiseIllegal code (accept c { s with inbox := rest })) := by
  rcases hin : s.inbox with _ | ⟨e, rest⟩
  · exact .inl ⟨rfl, by simp [step, poll, hin]⟩
  · cases e with
    | reset => exact .inr (.inl ⟨rest, rfl, by simp [step, poll, hin]⟩)
    | cutOff c => exact .inr (.inr (.inl ⟨c, rest, rfl, by simp [step, poll, hin]⟩))
    | command c =>
      cases hd : decode c.cmd with
      | legal i => exact .inr (.inr (.inr (.inl ⟨c, rest, i, rfl, hd, by simp [step, poll, hin, hd]⟩)))
      | illegal code => exact .inr (.inr (.inr (.inr ⟨c, rest, code, rfl, hd, by simp [step, poll, hin, hd]⟩)))

/-- The status of an illegal command is `01` or `10` (R180). -/
theorem decode_illegal_status {w : CmdWord} {code : Status} (h : decode w = .illegal code) :
    code = Status.illegalOpcode ∨ code = Status.reservedField := by
  unfold decode at h
  split at h
  · exact .inl (by simpa using h.symm)
  · simp only at h
    repeat' split at h
    all_goals exact .inr (by simpa using h.symm)

end Sys2Proof.Machine
end

