-- ==== Sys2Proof/Laws/PerInstr.lean ====
section
/-! SUPPORT. Statements about every command as syntax, one lemma per constructor. -/

namespace Sys2Proof.Laws

/-- Every command is well formed: its types admit only operands and counts that fit its shape (R61, R62). -/
def WellFormed.Statement (i : Instr) : Prop := i.wellFormed = true

theorem WellFormed.add (a : SrcA) (b : SrcB) : WellFormed.Statement (.add a b) := by
  cases a <;> cases b <;> rfl
theorem WellFormed.sub (a : SrcA) (b : SrcB) : WellFormed.Statement (.sub a b) := by
  cases a <;> cases b <;> rfl
theorem WellFormed.neg (a : SrcA) : WellFormed.Statement (.neg a) := by
  cases a <;> rfl
theorem WellFormed.shl (a : SrcA) (n : Count) : WellFormed.Statement (.shl a n) := by
  have hn := n.isLt
  have : n.toNat ≤ 255 := by omega
  cases a <;> simpa [WellFormed.Statement, Instr.wellFormed, Instr.toLine, AsmLine.wellFormed,
    AsmLine.firstOperandFits, AsmLine.secondOperandFits, AsmLine.countFits, Op.shape, SrcA.name,
    OperandName.srcA?] using this
theorem WellFormed.shr (a : SrcA) (n : Count) : WellFormed.Statement (.shr a n) := by
  have hn := n.isLt
  have : n.toNat ≤ 255 := by omega
  cases a <;> simpa [WellFormed.Statement, Instr.wellFormed, Instr.toLine, AsmLine.wellFormed,
    AsmLine.firstOperandFits, AsmLine.secondOperandFits, AsmLine.countFits, Op.shape, SrcA.name,
    OperandName.srcA?] using this
theorem WellFormed.mul (a : SrcA) (b : SrcB) : WellFormed.Statement (.mul a b) := by
  cases a <;> cases b <;> rfl
theorem WellFormed.eq (a : SrcA) (b : SrcB) : WellFormed.Statement (.eq a b) := by
  cases a <;> cases b <;> rfl
theorem WellFormed.ltu (a : SrcA) (b : SrcB) : WellFormed.Statement (.ltu a b) := by
  cases a <;> cases b <;> rfl

end Sys2Proof.Laws
end

