-- ==== Sys2Proof/Tests/Slice0.lean ====
section
/-! SUPPORT. Tests: words written out from R60 and R63, vectors of 95_test_vectors.md, the checks of WellFormed, and a
witness for the hypotheses of each statement. Expected values come from the spec's tables and rules. -/

namespace Sys2Proof.Tests
open Sys2Proof Sys2Proof.Machine

/-- The fixed operand `A` of 95_test_vectors.md. -/
def vecA : Word := W 0x0123456789abcdeffedcba9876543210#128 0x0f1e2d3c4b5a69788796a5b4c3d2e1f0#128
/-- The fixed operand `B` of 95_test_vectors.md. -/
def vecB : Word := W 0xfedcba98765432100123456789abcdef#128 0x11111111111111112222222222222222#128

/-- A state with `ACC = acc` and one command to take. -/
def withCommand (acc : Word) (cmd : CmdWord) (pa pb : Word) : State :=
  { State.reset with acc := acc, inbox := [.command ⟨cmd, pa, pb⟩] }

/-- `ACC` and the response after one step. -/
def oneStep (s : State) : Option (Word × Option Response) :=
  match step s with
  | .next t => some (t.acc, t.outputs)
  | .fault _ => none
  | .refused _ => none

/-- A legal command that writes `v`. -/
def writes (v : Word) : Option (Word × Option Response) := some (v, some ⟨v, 0b00#2⟩)

/-! ## Decoding: words written out bit by bit from R60 (`SHAMT RSV SB SA OP`) -/

theorem test_decode_add : decode 0b0000000000100000#16 = .legal (.add .pa .acc) := by decide
theorem test_decode_sub : decode 0b0000000000010001#16 = .legal (.sub .acc .pb) := by decide
theorem test_decode_neg : decode 0b0000000000010010#16 = .legal (.neg .acc) := by decide
theorem test_decode_shl : decode 0b0100000000010011#16 = .legal (.shl .acc 64#8) := by decide
theorem test_decode_shr : decode 0b1111111100000100#16 = .legal (.shr .pa 255#8) := by decide
theorem test_decode_mul : decode 0b0000000000010101#16 = .legal (.mul .acc .pb) := by decide
theorem test_decode_eq : decode 0b0000000000110110#16 = .legal (.eq .acc .acc) := by decide
theorem test_decode_ltu : decode 0b0000000000100111#16 = .legal (.ltu .pa .acc) := by decide
/-- D-ILL-1, D-ILL-4, D-ILL-5, D-ILL-6, D-ILL-7, D-ILL-9. -/
theorem test_decode_illegal :
    decode 0x0008#16 = .illegal 0b01#2 ∧ decode 0x0100#16 = .illegal 0b10#2 ∧ decode 0x0022#16 = .illegal 0b10#2 ∧
    decode 0x0123#16 = .illegal 0b10#2 ∧ decode 0x0049#16 = .illegal 0b01#2 ∧ decode 0x0080#16 = .illegal 0b10#2 := by
  decide
/-- R72's examples. -/
theorem test_encode_examples :
    encode (.shl .acc 64#8) = 0x4013#16 ∧ encode (.shr .pa 255#8) = 0xFF04#16 ∧ encode (.mul .acc .pb) = 0x0015#16 := by
  decide

/-! ## One step: the spec's vectors -/

/-- D-ADD-5. -/
theorem test_add_vectors : oneStep (withCommand 0 0x0000#16 vecA vecB) =
    writes (W 0xffffffffffffffffffffffffffffffff#128 0x202f3e4d5c6b7a89a9b8c7d6e5f50412#128) := by decide
/-- D-ADD-3: the carry crosses the limb boundary. -/
theorem test_add_carry : oneStep (withCommand 0 0x0000#16 (W 0#128 MAX_128) ONE) = writes (W 1#128 0#128) := by decide
/-- D-SUB-6. -/
theorem test_sub_vectors : oneStep (withCommand 0 0x0001#16 vecA vecB) =
    writes (W 0x02468acf13579bdffdb97530eca86420#128 0xfe0d1c2b3a49586765748392a1b0bfce#128) := by decide
/-- P3 step 13 with the operands told apart: `SUB ACC, PB` is `ACC - PB`. -/
theorem test_sub_acc_minuend : oneStep (withCommand 5#256 0x0011#16 MAX 3#256) = writes 2#256 := by decide
/-- D-NEG-6. -/
theorem test_neg_vector : oneStep (withCommand 0 0x0002#16 vecA MAX) =
    writes (W 0xfedcba98765432100123456789abcdef#128 0xf0e1d2c3b4a5968778695a4b3c2d1e10#128) := by decide
/-- D-ILL-11: `NEG ACC`. -/
theorem test_neg_acc : oneStep (withCommand vecA 0x0012#16 0 0) =
    writes (W 0xfedcba98765432100123456789abcdef#128 0xf0e1d2c3b4a5968778695a4b3c2d1e10#128) := by decide
/-- D-SHF-4. -/
theorem test_shl_64 : oneStep (withCommand 0 0x4003#16 vecA 0) =
    writes (W 0xfedcba98765432100f1e2d3c4b5a6978#128 0x8796a5b4c3d2e1f00000000000000000#128) := by decide
/-- D-SHF-7. -/
theorem test_shl_129 : oneStep (withCommand 0 0x8103#16 vecA 0) =
    writes (W 0x1e3c5a7896b4d2f10f2d4b6987a5c3e0#128 0#128) := by decide
/-- D-SHF-14. -/
theorem test_shr_64 : oneStep (withCommand 0 0x4004#16 vecA 0) =
    writes (W 0x00000000000000000123456789abcdef#128 0xfedcba98765432100f1e2d3c4b5a6978#128) := by decide
/-- D-SHF-12: zeros enter at bit 255. -/
theorem test_shr_logical : oneStep (withCommand 0 0x0104#16 MAX 0) =
    writes (W 0x7fffffffffffffffffffffffffffffff#128 MAX_128) := by decide
/-- D-MUL-9. -/
theorem test_mul_vectors : oneStep (withCommand 0 0x0005#16 vecA vecB) =
    writes (W 0xc7a1c022c9b4e458018076e4ca26fb48#128 0x07060504030200ffedebe9e7e5e3e1e0#128) := by decide
/-- D-MUL-16: 65-bit operands straight into `mul128`. -/
theorem test_mul_65_bits : oneStep (withCommand 0 0x0005#16 (W 0#128 0x1fffffffffffffffe#128)
    (W 0#128 0x1fffffffffffffffe#128)) = writes (W 3#128 0xfffffffffffffff80000000000000004#128) := by decide
/-- D-CMP-2: values that differ in bit 0. -/
theorem test_eq_bit_0 : oneStep (withCommand 0 0x0006#16 vecA (vecA + 1)) = writes ZERO := by decide
/-- D-CMP-5: `EQ ACC, ACC`. -/
theorem test_eq_acc : oneStep (withCommand vecA 0x0036#16 0 0) = writes ONE := by decide
/-- D-CMP-8: the higher limb decides. -/
theorem test_ltu_higher : oneStep (withCommand 0 0x0007#16 (W 1#128 0#128) (W 0#128 MAX_128)) = writes ZERO := by decide
/-- D-CMP-11: the lower limb decides. -/
theorem test_ltu_lower : oneStep (withCommand 0 0x0007#16 (W 5#128 7#128) (W 5#128 8#128)) = writes ONE := by decide
/-- D-ILL-1 and D-ILL-3: an illegal command keeps `ACC` and answers it with its status. -/
theorem test_illegal : oneStep (withCommand vecA 0x0008#16 0 0) = some (vecA, some ⟨vecA, 0b01#2⟩) ∧
    oneStep (withCommand vecA 0x0040#16 0 0) = some (vecA, some ⟨vecA, 0b10#2⟩) := by decide
/-- R200: reset, and a command cut off by it. -/
theorem test_reset : oneStep { State.reset with acc := vecA, inbox := [.reset] } = some (0, none) ∧
    oneStep { State.reset with acc := vecA, inbox := [.cutOff ⟨0x0003#16, MAX, 0⟩] } = some (0, none) := by decide
/-- The trace of 95_test_vectors.md for `x = y = 2^128 - 1`: the products and `cross` of invocation 1, `mid` and the
result of invocation 2. -/
theorem test_mul128_trace :
    mul64 (limbLo MAX_128) (limbLo MAX_128) = 0xfffffffffffffffe0000000000000001#128 ∧
    halfSum MAX_128 = 0x1fffffffffffffffe#128 ∧
    mul128 0x1fffffffffffffffe#128 0x1fffffffffffffffe#128 = W 3#128 0xfffffffffffffff80000000000000004#128 ∧
    crossTerm (W 3#128 0xfffffffffffffff80000000000000004#128) 0xfffffffffffffffe0000000000000001#128
      0xfffffffffffffffe0000000000000001#128 = W 1#128 0xfffffffffffffffc0000000000000002#128 ∧
    (countedMul128 MAX_128 MAX_128).natives = 5 ∧ (countedMul128 0x10000000000000000#128 3#128).natives = 3 := by decide
/-- The word the host places is the one the next step runs, with the port values that stand there (R113). -/
theorem test_placed_word : oneStep (({ State.reset with acc := ONE } : State).withFetchWord 16 0xFF13) =
    writes (W 0x80000000000000000000000000000000#128 0#128) := by decide
theorem test_table_word : decodeTableWord 16 0x0005 = some (.mul .pa .pb) ∧ decodeTableWord 16 0x0008 = none := by decide

/-! ## Well-formedness: each check refuses an ill-formed line -/

theorem test_wf_first_operand : (AsmLine.mk .neg .pb none none).wellFormed = false := by decide
theorem test_wf_second_operand_missing : (AsmLine.mk .add .pa none none).wellFormed = false := by decide
theorem test_wf_second_operand_wrong : (AsmLine.mk .add .pa (some .pa) none).wellFormed = false := by decide
theorem test_wf_second_operand_extra : (AsmLine.mk .neg .pa (some .acc) none).wellFormed = false := by decide
theorem test_wf_count_too_large : (AsmLine.mk .shl .acc none (some 256)).wellFormed = false := by decide
theorem test_wf_count_missing : (AsmLine.mk .shr .acc none none).wellFormed = false := by decide
theorem test_wf_count_extra : (AsmLine.mk .neg .acc none (some 1)).wellFormed = false := by decide
theorem test_wf_accepts : (AsmLine.mk .shl .acc none (some 255)).wellFormed = true := by decide

/-! ## Assembler text (R70, R71) -/

theorem test_asm_shift : assemble "shl Acc, #0x40 ; comment".toList = some ⟨.shl .acc 64#8, none, none⟩ := by decide
theorem test_asm_ports : assemble ("ADD PA, PB ".toList ++ [openBrace] ++ "PA=MAX, PB=ONE".toList ++ [closeBrace]) =
    some ⟨.add .pa .pb, some MAX, some ONE⟩ := by decide
theorem test_asm_literal : readValue "0X00000000000000000000000000000001_000000000000000000000000000000AB".toList =
    some (W 1#128 0xab#128) := by decide
theorem test_asm_pseudo : assemble "INC".toList = some ⟨.add .acc .pb, none, some ONE⟩ := by decide
theorem test_asm_refuses : assemble "SHL ACC, #256".toList = none ∧
    assemble ("NEG ACC ".toList ++ [openBrace] ++ "PA=ONE".toList ++ [closeBrace]) = none := by decide

/-! ## Witnesses: a concrete state and operands for the hypotheses of each statement that has any -/

theorem witness_DecodeAndEncodeAgree : decode 0x4013#16 = .legal (.shl .acc 64#8) := by decide
theorem witness_CommandWordIsFieldSum : (Instr.ltu, 7) ∈
    [(Instr.add, 0), (Instr.sub, 1), (Instr.mul, 5), (Instr.eq, 6), (Instr.ltu, 7)] := by simp
theorem witness_LegalWordMatchesExactlyOneRow :
    decode 0xFF13#16 = .legal (.shl .acc 255#8) ∧
    (tableRow .shl ∈ opcodeTable ∧ rowMatches (tableRow .shl) 0xFF13#16 = true) ∧
    opcodeTable.filter (fun r => rowMatches r 0x0008#16) = [] := by decide
theorem witness_ReservedOpcodeAnswersStatusOne : 8 ≤ (0xFF08#16 : CmdWord).toNat % 16 ∧
    (withCommand vecA 0xFF08#16 vecA vecB).inbox = .command ⟨0xFF08#16, vecA, vecB⟩ :: [] := by decide
theorem witness_ReservedFieldAnswersStatusTwo : (0x0047#16 : CmdWord).toNat % 16 < 8 ∧
    decode 0x0047#16 = .illegal 0b10#2 ∧ decode 0x0102#16 = .illegal 0b10#2 ∧ decode 0x0024#16 = .illegal 0b10#2 := by
  decide
theorem witness_ReservedOpcodeReportedFirst :
    decode 0x0049#16 = .illegal 0b01#2 ∧ decode 0x00C0#16 = .illegal 0b10#2 := by decide
theorem witness_LinesReadBackAndCountsAreNotReduced :
    (AsmLine.mk .shr .pa none (some 255)).toInstr? = some (.shr .pa 255#8) ∧ 255 < 256 := by decide
theorem witness_PseudoInstructionsDoWhatTheTableSays :
    (withCommand vecA 0x0021#16 MAX vecB).inbox = .command (assembledCommand (pseudoAssembled .not) vecA vecB) :: [] := by
  decide
theorem witness_Mul128IsExact : ∃ x y : Limb, x = MAX_128 ∧ y = MAX_128 := ⟨_, _, rfl, rfl⟩
theorem witness_ThirdInvocationIsFast : (0x1fffffffffffffffe#128 : Limb).toNat ≤ 2 ^ 65 - 2 := by decide
theorem witness_ComparatorLaws : ltu256 ZERO ONE = 1#1 ∧ ltu256 ONE MAX = 1#1 := by decide
theorem witness_OperandConstructionKeepsValue : 8 ≤ 128 ∧ 128 ≤ 128 ∧ (0xab#8).toNat = (0xab#128).toNat := by decide
theorem witness_LimbPairIsUnique : (W 1#128 MAX_128).toNat = (1#128).toNat * 2 ^ 128 + MAX_128.toNat := by decide
/-- For each of the eight rows: a word it matches, and a word with its opcode that it does not match. -/
theorem witness_EncodedByRow :
    (0x0030#16 &&& 0xFFCF#16 = 0x0000#16 ∧ (0x0040#16).toNat % 16 = (0x0000#16).toNat ∧ 0x0040#16 &&& 0xFFCF#16 ≠ 0x0000#16) ∧
    (0x0031#16 &&& 0xFFCF#16 = 0x0001#16 ∧ (0x0101#16).toNat % 16 = (0x0001#16).toNat ∧ 0x0101#16 &&& 0xFFCF#16 ≠ 0x0001#16) ∧
    (0x0012#16 &&& 0xFFEF#16 = 0x0002#16 ∧ (0x0022#16).toNat % 16 = (0x0002#16).toNat ∧ 0x0022#16 &&& 0xFFEF#16 ≠ 0x0002#16) ∧
    (0xFF13#16 &&& 0x00EF#16 = 0x0003#16 ∧ (0x0123#16).toNat % 16 = (0x0003#16).toNat ∧ 0x0123#16 &&& 0x00EF#16 ≠ 0x0003#16) ∧
    (0xFF14#16 &&& 0x00EF#16 = 0x0004#16 ∧ (0x0084#16).toNat % 16 = (0x0004#16).toNat ∧ 0x0084#16 &&& 0x00EF#16 ≠ 0x0004#16) ∧
    (0x0035#16 &&& 0xFFCF#16 = 0x0005#16 ∧ (0x0105#16).toNat % 16 = (0x0005#16).toNat ∧ 0x0105#16 &&& 0xFFCF#16 ≠ 0x0005#16) ∧
    (0x0036#16 &&& 0xFFCF#16 = 0x0006#16 ∧ (0x0046#16).toNat % 16 = (0x0006#16).toNat ∧ 0x0046#16 &&& 0xFFCF#16 ≠ 0x0006#16) ∧
    (0x0037#16 &&& 0xFFCF#16 = 0x0007#16 ∧ (0x0107#16).toNat % 16 = (0x0007#16).toNat ∧ 0x0107#16 &&& 0xFFCF#16 ≠ 0x0007#16) := by
  decide
/-- The examples' commands stand at the head of these states' inboxes. -/
theorem witness_CommandWrites :
    (withCommand vecA 0x0000#16 MAX ONE).inbox = .command ⟨0x0000#16, MAX, ONE⟩ :: [] ∧
    (withCommand vecA 0x0001#16 ZERO ONE).inbox = .command ⟨0x0001#16, ZERO, ONE⟩ :: [] ∧
    (withCommand vecA 0x0002#16 ONE vecB).inbox = .command ⟨0x0002#16, ONE, vecB⟩ :: [] ∧
    (withCommand vecA 0xFF03#16 ONE vecB).inbox = .command ⟨0xFF03#16, ONE, vecB⟩ :: [] ∧
    (withCommand vecA 0x8004#16 (W MAX_128 0#128) vecB).inbox = .command ⟨0x8004#16, W MAX_128 0#128, vecB⟩ :: [] ∧
    (withCommand vecA 0x0005#16 (W 1#128 1#128) (W 1#128 1#128)).inbox =
      .command ⟨0x0005#16, W 1#128 1#128, W 1#128 1#128⟩ :: [] ∧
    (withCommand vecA 0x0006#16 MAX MAX).inbox = .command ⟨0x0006#16, MAX, MAX⟩ :: [] ∧
    (withCommand vecA 0x0007#16 ZERO MAX).inbox = .command ⟨0x0007#16, ZERO, MAX⟩ :: [] :=
  ⟨rfl, rfl, rfl, rfl, rfl, rfl, rfl, rfl⟩
theorem witness_NegCommand : ∃ s t u : State, exec (.neg .acc) s = .next t ∧ exec (.neg .acc) t = .next u :=
  ⟨withCommand vecA 0x0012#16 0 0, _, _, rfl, rfl⟩
theorem witness_StepRunsTheDecodedCommand :
    (withCommand vecA 0x0030#16 0 0).inbox = .command ⟨0x0030#16, 0, 0⟩ :: [] ∧
    decode 0x0030#16 = .legal (.add .acc .acc) ∧ (Instr.add .acc .acc).wellFormed = true := by decide
theorem witness_PlacedWordIsRunNext : decodeTableWord 16 0x8114 = some (.shr .acc 129#8) := by decide
theorem witness_IllegalCommandOnlyAnswers :
    ({ State.reset with acc := vecA, inbox := [.command ⟨0x0102#16, vecA, 0⟩, .command ⟨0x0012#16, 0, 0⟩] } : State).inbox
      = .command ⟨0x0102#16, vecA, 0⟩ :: .command ⟨0x0012#16, 0, 0⟩ :: [] ∧
    decode 0x0102#16 = .illegal 0b10#2 := by decide
theorem witness_ResultIsAccAfterEveryCommand :
    (withCommand vecA 0x0005#16 vecA vecB).inbox = .command ⟨0x0005#16, vecA, vecB⟩ :: [] ∧
    decode 0x0005#16 = .legal (.mul .pa .pb) ∧
    (withCommand vecA 0x000F#16 vecA vecB).inbox = .command ⟨0x000F#16, vecA, vecB⟩ :: [] ∧
    decode 0x000F#16 = .illegal 0b01#2 := by decide
theorem witness_OnlyLegalCommandsAndResetWriteAcc :
    ∃ t, step (withCommand 0 0x0003#16 ONE 0) = .next t ∧ t.acc ≠ (withCommand 0 0x0003#16 ONE 0).acc :=
  ⟨_, rfl, by decide⟩
theorem witness_ResetClearsAccAndDiscardsCommand :
    ({ State.reset with acc := vecA, inbox := [.reset] } : State).inbox = .reset :: [] ∧
    ({ State.reset with acc := vecA, inbox := [.cutOff ⟨0x0003#16, MAX, 0⟩] } : State).inbox =
      .cutOff ⟨0x0003#16, MAX, 0⟩ :: [] := ⟨rfl, rfl⟩
theorem witness_IdleBlockHoldsItsState : ({ State.reset with acc := vecA } : State).inbox = [] := rfl
theorem witness_StepKeepsOutputsAgree :
    OutputsAgree { State.reset with acc := vecA, outputs := some ⟨vecA, 0b00#2⟩, log := [⟨vecA, 0b00#2⟩],
                                    inbox := [.command ⟨0x0012#16, 0, 0⟩] } ∧
    ∃ t, step { State.reset with acc := vecA, outputs := some ⟨vecA, 0b00#2⟩, log := [⟨vecA, 0b00#2⟩],
                                 inbox := [.command ⟨0x0012#16, 0, 0⟩] } = .next t :=
  ⟨⟨by simp, by simp, by simp⟩, _, rfl⟩
theorem witness_UnreadPortsNeverMatter : decode 0x0021#16 = .legal (.sub .pa .acc) ∧
    (readsPA (.sub .pa .acc) = true → MAX = MAX) ∧ (readsPB (.sub .pa .acc) = true → vecA = vecB) := by decide
theorem witness_PortOnlyCommandForgetsAcc :
    ({ State.reset with inbox := [.command ⟨0x0005#16, vecA, vecB⟩, .command ⟨0x0005#16, vecA, vecB⟩] } : State).inbox =
      .command ⟨0x0005#16, vecA, vecB⟩ :: .command ⟨0x0005#16, vecA, vecB⟩ :: [] ∧
    decode 0x0005#16 = .legal (.mul .pa .pb) ∧ readsAcc (.mul .pa .pb) = false := by decide
/-- Another past, other port values and other outputs, with the same `ACC` and events. -/
def otherPast (s : State) : State :=
  { s with ports := ⟨1#16, vecA, vecB⟩, outputs := some ⟨s.acc, 0b01#2⟩, log := [⟨s.acc, 0b01#2⟩] }
/-- Different outputs with an event to take. -/
theorem witness_OnlyAccIsCarriedOver :
    (withCommand vecA 0x0030#16 0 0).acc = (otherPast (withCommand vecA 0x0030#16 0 0)).acc ∧
    (withCommand vecA 0x0030#16 0 0).inbox = (otherPast (withCommand vecA 0x0030#16 0 0)).inbox ∧
    (withCommand vecA 0x0030#16 0 0).outputs ≠ (otherPast (withCommand vecA 0x0030#16 0 0)).outputs ∧
    0 < 1 ∧ (withCommand vecA 0x0030#16 0 0).inbox ≠ [] := by decide
/-- Equal outputs with no event to take. -/
theorem witness_OnlyAccIsCarriedOver_idle :
    ({ State.reset with ports := ⟨1#16, vecA, vecB⟩ } : State).acc = State.reset.acc ∧
    ({ State.reset with ports := ⟨1#16, vecA, vecB⟩ } : State).inbox = State.reset.inbox ∧
    ({ State.reset with ports := ⟨1#16, vecA, vecB⟩ } : State).outputs = State.reset.outputs := ⟨rfl, rfl, rfl⟩
theorem witness_RunIsTheLeftFoldOfItsCommands :
    ({ State.reset with inbox := [.command ⟨0x0003#16, vecA, 0⟩, .command ⟨0x0012#16, 0, 0⟩, .reset] } : State).inbox =
      [⟨0x0003#16, vecA, 0⟩, ⟨0x0012#16, 0, 0⟩].map HostEvent.command ++ [.reset] := rfl
theorem witness_AllStatusesOkIffAllLegal :
    AllOk (answers vecA [⟨0x0003#16, vecA, 0⟩]) ∧ ∀ c ∈ [(⟨0x0003#16, vecA, 0⟩ : Command)], ∃ i, decode c.cmd = .legal i := by
  refine ⟨by unfold AllOk; decide, ?_⟩
  intro c hc
  rw [List.mem_singleton.1 hc]
  exact ⟨.shl .pa 0#8, by decide⟩

end Sys2Proof.Tests
end

section
/-! PROOFS. The datapath as arithmetic on 256-bit values: each limb-by-limb unit is the `BitVec` operation it stands
for (R81, R85, R86, R110, R111, R132 to R137, R171). -/

namespace Sys2Proof.Machine

/-! ### Limbs -/

/-- A number that is a pair of limbs has these limbs (R26). -/
theorem limbs_of_toNat_eq {v : Word} {h l : Limb} (hv : v.toNat = h.toNat * 2 ^ 128 + l.toNat) :
    h = hi v ∧ l = lo v := by
  have hvW : v = W h l := BitVec.eq_of_toNat_eq (hv.trans (W_toNat h l).symm)
  rw [hvW, hi_W, lo_W]
  exact ⟨rfl, rfl⟩

/-- Equality of values is equality of both limbs (R26). -/
theorem eq_iff_limbs {a b : Word} : a = b ↔ hi a = hi b ∧ lo a = lo b :=
  ⟨fun h => by rw [h]; exact ⟨rfl, rfl⟩, fun ⟨hh, hl⟩ => eq_of_limbs hh hl⟩

/-- A native value's port value is the same number (R27). -/
theorem ofNative_toNat {k : Nat} (hk : k ≤ 128) (u : BitVec k) : (ofNative k hk u).toNat = u.toNat := by
  rw [ofNative, W_toNat, BitVec.toNat_setWidth_of_le hk, BitVec.toNat_zero, Nat.zero_mul, Nat.zero_add]

/-! ### Adder, subtractor, negator -/

/-- The limb adder is addition (R81). -/
theorem add256_eq_add (a b : Word) : add256 a b = a + b := by
  apply BitVec.eq_of_toNat_eq
  have ha := toNat_eq_limbs a
  have hb := toNat_eq_limbs b
  simp only [add256, W_toNat, BitVec.toNat_add, BitVec.toNat_setWidth, limbCarry_toNat,
    BitVec.extractLsb'_toNat, limbSum_toNat, Nat.shiftRight_zero]
  omega

/-- The limb subtractor is subtraction (R85). -/
theorem sub256_eq_sub (a b : Word) : sub256 a b = a - b := by
  apply BitVec.eq_of_toNat_eq
  have ha := toNat_eq_limbs a
  have hb := toNat_eq_limbs b
  simp only [sub256, W_toNat, BitVec.toNat_sub, BitVec.toNat_setWidth, borrowN_toNat]
  split <;> omega

/-- The negator is negation (R86). -/
theorem neg256_eq_neg (a : Word) : neg256 a = -a := by
  have wrap : MAX + ONE = 0#256 := by decide
  rw [neg256, add256_eq_add, sub256_eq_sub, BitVec.sub_eq_add_neg, BitVec.add_assoc, BitVec.add_comm (-a),
    ← BitVec.add_assoc, wrap, BitVec.zero_add]

/-! ### Shifters -/

/-- Below 128, a left shift moves the top bits of the lower limb into the higher one (R110). -/
theorem W_shiftLeft_of_lt (h l : Limb) {n : Nat} (hn : n < 128) :
    W h l <<< n = W ((h <<< n) ||| (l >>> (128 - n))) (l <<< n) := by
  apply BitVec.eq_of_getLsbD_eq
  intro i hi
  simp only [W_getLsbD, BitVec.getLsbD_or, BitVec.getLsbD_shiftLeft, BitVec.getLsbD_ushiftRight]
  rcases lt_or_ge i 128 with hlow | hhigh
  · have : i - n < 128 := by omega
    simp [hlow, this, hi]
  · have hin : ¬ i < n := by omega
    have hi128 : i - 128 < 128 := by omega
    rcases lt_or_ge (i - 128) n with hfromLow | hfromHigh
    · have hidx : 128 - n + (i - 128) = i - n := by omega
      have : i - n < 128 := by omega
      simp [hidx, this, hhigh.not_gt, hfromLow, hin, hi]
    · have hidx : i - n - 128 = i - 128 - n := by omega
      have : ¬ i - n < 128 := by omega
      have hout : l.getLsbD (128 - n + (i - 128)) = false := l.getLsbD_of_ge _ (by omega)
      simp [hidx, this, hhigh.not_gt, hfromHigh.not_gt, hin, hi, hout, hi128]

/-- From 128 on, a left shift leaves only the lower limb, in the higher one's place (R110). -/
theorem W_shiftLeft_of_ge (h l : Limb) {n : Nat} (hn : 128 ≤ n) :
    W h l <<< n = W (l <<< (n - 128)) 0#128 := by
  apply BitVec.eq_of_getLsbD_eq
  intro i hi
  simp only [W_getLsbD, BitVec.getLsbD_shiftLeft, BitVec.getLsbD_zero]
  rcases lt_or_ge i 128 with hlow | hhigh
  · have : i < n := by omega
    simp [hlow, this]
  · have hidx : i - 128 - (n - 128) = i - n := by omega
    have hfrom : i - n < 128 := by omega
    have hin : i - 128 < n - 128 ↔ i < n := by omega
    have hi128 : i - 128 < 128 := by omega
    simp [hidx, hfrom, hin, hi128, hi, hhigh.not_gt]

/-- Below 128, a right shift moves the low bits of the higher limb into the lower one (R111). -/
theorem W_ushiftRight_of_lt (h l : Limb) {n : Nat} (hn : n < 128) :
    W h l >>> n = W (h >>> n) ((l >>> n) ||| (h <<< (128 - n))) := by
  apply BitVec.eq_of_getLsbD_eq
  intro i hi
  simp only [W_getLsbD, BitVec.getLsbD_or, BitVec.getLsbD_shiftLeft, BitVec.getLsbD_ushiftRight]
  rcases lt_or_ge (n + i) 128 with hfromLow | hfromHigh
  · have hlow : i < 128 := by omega
    have hout : i < 128 - n := by omega
    simp [hfromLow, hlow, hout]
  · have hidx : n + i - 128 = i - (128 - n) := by omega
    rcases lt_or_ge i 128 with hlow | hhigh
    · have hin : ¬ i < 128 - n := by omega
      have hout : l.getLsbD (n + i) = false := l.getLsbD_of_ge _ hfromHigh
      simp [hfromHigh.not_gt, hidx, hout, hin, hlow]
    · have hidx' : n + (i - 128) = i - (128 - n) := by omega
      simp [hfromHigh.not_gt, hhigh.not_gt, hidx, hidx']

/-- From 128 on, a right shift leaves only the higher limb, in the lower one's place (R111). -/
theorem W_ushiftRight_of_ge (h l : Limb) {n : Nat} (hn : 128 ≤ n) :
    W h l >>> n = W 0#128 (h >>> (n - 128)) := by
  apply BitVec.eq_of_getLsbD_eq
  intro i hi
  have hidx : n + i - 128 = n - 128 + i := by omega
  have hge : ¬ n + i < 128 := by omega
  simp only [W_getLsbD, BitVec.getLsbD_ushiftRight, BitVec.getLsbD_zero, if_neg hge, hidx]
  split
  · rfl
  · exact h.getLsbD_of_ge _ (by omega)

/-- The left shifter is the left shift, at every count (R110, R112). -/
theorem shl256_eq_shiftLeft (a : Word) (n : Count) : shl256 a n = a <<< n.toNat := by
  unfold shl256
  split
  next hzero => rw [hzero, BitVec.shiftLeft_zero]
  next =>
    split
    next hn => rw [← W_shiftLeft_of_lt _ _ hn, W_hi_lo]
    next hn => rw [← W_shiftLeft_of_ge (hi a) _ (not_lt.mp hn), W_hi_lo]

/-- The left shifter multiplies mod `2^256` (R110). -/
theorem shl256_toNat (a : Word) (n : Count) : (shl256 a n).toNat = a.toNat * 2 ^ n.toNat % 2 ^ 256 := by
  rw [shl256_eq_shiftLeft, BitVec.toNat_shiftLeft, Nat.shiftLeft_eq]

/-- The right shifter is the logical right shift, at every count (R111, R112). -/
theorem shr256_eq_ushiftRight (a : Word) (n : Count) : shr256 a n = a >>> n.toNat := by
  unfold shr256
  split
  next hzero => rw [hzero, BitVec.ushiftRight_zero]
  next =>
    split
    next hn => rw [← W_ushiftRight_of_lt _ _ hn, W_hi_lo]
    next hn => rw [← W_ushiftRight_of_ge _ (lo a) (not_lt.mp hn), W_hi_lo]

/-- The right shifter divides and rounds down (R111). -/
theorem shr256_toNat (a : Word) (n : Count) : (shr256 a n).toNat = a.toNat / 2 ^ n.toNat := by
  rw [shr256_eq_ushiftRight, BitVec.toNat_ushiftRight, Nat.shiftRight_eq_div_pow]

/-! ### Multiplier -/

/-- The native product is exact (R130). -/
theorem mul64_toNat (x y : HalfLimb) : (mul64 x y).toNat = x.toNat * y.toNat := by
  have hxy : x.toNat * y.toNat < 2 ^ 64 * 2 ^ 64 := Nat.mul_lt_mul'' x.isLt y.isLt
  rw [mul64, BitVec.toNat_mul, BitVec.toNat_setWidth_of_le (by decide), BitVec.toNat_setWidth_of_le (by decide),
    Nat.mod_eq_of_lt (by omega)]

theorem limbHi_toNat (x : Limb) : (limbHi x).toNat = x.toNat / 2 ^ 64 := by
  have hx := x.isLt
  simp only [limbHi, BitVec.extractLsb'_toNat, Nat.shiftRight_eq_div_pow]
  omega

theorem limbLo_toNat (x : Limb) : (limbLo x).toNat = x.toNat % 2 ^ 64 := by
  simp [limbLo, BitVec.extractLsb'_toNat]

/-- A limb is its two halves (R132). -/
theorem toNat_eq_halves (x : Limb) : x.toNat = (limbHi x).toNat * 2 ^ 64 + (limbLo x).toNat := by
  rw [limbHi_toNat, limbLo_toNat]
  omega

/-- The sum of the halves does not wrap (R133). -/
theorem halfSum_toNat (x : Limb) : (halfSum x).toNat = (limbHi x).toNat + (limbLo x).toNat := by
  have hh := (limbHi x).isLt
  have hl := (limbLo x).isLt
  simp only [halfSum, BitVec.toNat_add, BitVec.toNat_setWidth]
  omega

/-- The sum of the halves of a sum of halves fits in 64 bits, so that two splits suffice (R135). -/
theorem halfSum_halfSum_lt (x : Limb) : (halfSum (halfSum x)).toNat < 2 ^ 64 := by
  have hx := x.isLt
  simp only [halfSum_toNat, limbHi_toNat, limbLo_toNat]
  omega

theorem bothFit64_iff {x y : Limb} : bothFit64 x y = true ↔ x.toNat < 2 ^ 64 ∧ y.toNat < 2 ^ 64 := by
  simp [bothFit64]

/-- The fast path is exact where both operands fit in 64 bits (R132 step 1). -/
theorem fastProduct_toNat {x y : Limb} (hx : x.toNat < 2 ^ 64) (hy : y.toNat < 2 ^ 64) :
    (fastProduct x y).toNat = x.toNat * y.toNat := by
  rw [fastProduct, W_toNat, mul64_toNat, limbLo_toNat, limbLo_toNat, Nat.mod_eq_of_lt hx, Nat.mod_eq_of_lt hy,
    BitVec.toNat_zero, Nat.zero_mul, Nat.zero_add]

/-- Neither subtraction of the cross term wraps where `mid` holds both products (R134). -/
theorem crossTerm_toNat {mid : Word} {l h : Limb} {cross : Nat}
    (hmid : mid.toNat = cross + l.toNat + h.toNat) : (crossTerm mid l h).toNat = cross := by
  have hm := mid.isLt
  simp only [crossTerm, sub256_eq_sub, BitVec.toNat_sub, W_toNat, BitVec.toNat_ofNat]
  omega

/-- A product by halves (R134). -/
theorem mul_eq_of_halves (x y : Limb) :
    x.toNat * y.toNat = (limbHi x).toNat * (limbHi y).toNat * 2 ^ 128 + (limbLo x).toNat * (limbLo y).toNat +
      ((limbHi x).toNat * (limbLo y).toNat + (limbLo x).toNat * (limbHi y).toNat) * 2 ^ 64 := by
  rw [toNat_eq_halves x, toNat_eq_halves y]
  ring

/-- The general path is exact where its recursive product is (R134). -/
theorem karatsuba_toNat {x y : Limb} {mid : Word}
    (hmid : mid.toNat = (halfSum x).toNat * (halfSum y).toNat) :
    (karatsuba x y mid).toNat = x.toNat * y.toNat := by
  have hsplit := mul_eq_of_halves x y
  have hbound : x.toNat * y.toNat < 2 ^ 128 * 2 ^ 128 := Nat.mul_lt_mul'' x.isLt y.isLt
  have hcross : (crossTerm mid (mul64 (limbLo x) (limbLo y)) (mul64 (limbHi x) (limbHi y))).toNat =
      (limbHi x).toNat * (limbLo y).toNat + (limbLo x).toNat * (limbHi y).toNat := by
    apply crossTerm_toNat
    rw [hmid, halfSum_toNat, halfSum_toNat, mul64_toNat, mul64_toNat]
    ring
  simp only [karatsuba, add256_eq_add, BitVec.toNat_add, shl256_toNat, W_toNat, mul64_toNat, hcross,
    BitVec.reduceToNat]
  omega

/-- One more splitting level is exact where the level below is exact on the sums (R132). -/
theorem mul128At_succ_toNat {d : Nat} {x y : Limb}
    (hd : (mul128At d (halfSum x) (halfSum y)).toNat = (halfSum x).toNat * (halfSum y).toNat) :
    (mul128At (d + 1) x y).toNat = x.toNat * y.toNat := by
  unfold mul128At
  split
  next hfit => exact fastProduct_toNat (bothFit64_iff.mp hfit).1 (bothFit64_iff.mp hfit).2
  next => exact karatsuba_toNat hd

/-- The Karatsuba multiplier is exact (R134). -/
theorem mul128_toNat (x y : Limb) : (mul128 x y).toNat = x.toNat * y.toNat :=
  mul128At_succ_toNat (mul128At_succ_toNat (fastProduct_toNat (halfSum_halfSum_lt x) (halfSum_halfSum_lt y)))

/-- The 256-bit multiplier is multiplication (R137). -/
theorem mul256_eq_mul (a b : Word) : mul256 a b = a * b := by
  apply BitVec.eq_of_toNat_eq
  have hsplit : a.toNat * b.toNat = (lo a).toNat * (lo b).toNat + (lo a).toNat * (hi b).toNat * 2 ^ 128 +
      (hi a).toNat * (lo b).toNat * 2 ^ 128 + (hi a).toNat * (hi b).toNat * 2 ^ 256 := by
    rw [toNat_eq_limbs a, toNat_eq_limbs b]
    ring
  simp only [mul256, add256_eq_add, BitVec.toNat_add, shl256_toNat, BitVec.toNat_mul, mul128_toNat, hsplit,
    BitVec.reduceToNat]
  omega

/-! ### Comparator -/

/-- The comparator's equality is equality (R171). -/
theorem eq256_eq_ite (a b : Word) : eq256 a b = if a.toNat = b.toNat then 1#1 else 0#1 := by
  simp only [eq256, BitVec.toNat_inj, eq_iff_limbs (a := a) (b := b)]

/-- The comparator's order is the unsigned order (R171). -/
theorem ltu256_eq_ite (a b : Word) : ltu256 a b = if a.toNat < b.toNat then 1#1 else 0#1 := by
  have ha := toNat_eq_limbs a
  have hb := toNat_eq_limbs b
  have hla := (lo a).isLt
  have hlb := (lo b).isLt
  unfold ltu256 borrowN
  split
  next hne =>
    have : (hi a).toNat ≠ (hi b).toNat := fun h => hne (BitVec.eq_of_toNat_eq h)
    exact if_congr (by omega) rfl rfl
  next heq =>
    have : (hi a).toNat = (hi b).toNat := by rw [not_not.mp heq]
    exact if_congr (by omega) rfl rfl

/-! ### Operation column: what each arm of `exec` computes is the value level's (R63, R141) -/

/-- `pickA` is the value of operand A (R24). -/
theorem pickA_eq_opA (a : SrcA) (s : State) : pickA a s.acc s.ports.pa = (opA a s).toNat := by
  cases a <;> rfl

/-- `pickB` is the value of operand B (R24). -/
theorem pickB_eq_opB (b : SrcB) (s : State) : pickB b s.acc s.ports.pb = (opB b s).toNat := by
  cases b <;> rfl

theorem add256_eq_value (x y : Word) : add256 x y = BitVec.ofNat 256 ((x.toNat + y.toNat) % 2 ^ 256) := by
  rw [add256_eq_add]
  exact BitVec.eq_of_toNat_eq (by simp)

theorem sub256_eq_value (x y : Word) :
    sub256 x y = BitVec.ofInt 256 (((x.toNat : Int) - (y.toNat : Int)) % 2 ^ 256) := by
  apply BitVec.eq_of_toNat_eq
  rw [sub256_eq_sub, BitVec.toNat_sub, BitVec.toNat_ofInt]
  omega

theorem neg256_eq_value (x : Word) : neg256 x = BitVec.ofNat 256 ((2 ^ 256 - x.toNat) % 2 ^ 256) := by
  rw [neg256_eq_neg]
  exact BitVec.eq_of_toNat_eq (by simp)

theorem shl256_eq_value (x : Word) (n : Count) :
    shl256 x n = BitVec.ofNat 256 ((x.toNat * 2 ^ n.toNat) % 2 ^ 256) := by
  rw [← shl256_toNat, BitVec.ofNat_toNat, BitVec.setWidth_eq]

theorem shr256_eq_value (x : Word) (n : Count) : shr256 x n = BitVec.ofNat 256 (x.toNat / 2 ^ n.toNat) := by
  rw [← shr256_toNat, BitVec.ofNat_toNat, BitVec.setWidth_eq]

theorem mul256_eq_value (x y : Word) : mul256 x y = BitVec.ofNat 256 ((x.toNat * y.toNat) % 2 ^ 256) := by
  rw [mul256_eq_mul]
  exact BitVec.eq_of_toNat_eq (by simp)

theorem eq256_eq_value (x y : Word) :
    (eq256 x y).setWidth 256 = if x.toNat = y.toNat then 1#256 else 0#256 := by
  rw [eq256_eq_ite]
  split <;> rfl

theorem ltu256_eq_value (x y : Word) :
    (ltu256 x y).setWidth 256 = if x.toNat < y.toNat then 1#256 else 0#256 := by
  rw [ltu256_eq_ite]
  split <;> rfl

/-- Every command completes with the value of the opcode map's operation column (R63, R141). -/
theorem exec_eq_complete (i : Instr) (s : State) :
    exec i s = complete (valueOf i s.acc s.ports.pa s.ports.pb) s := by
  cases i with
  | add a b => simp only [exec, execAdd, add256_eq_value, valueOf, pickA_eq_opA, pickB_eq_opB]
  | sub a b => simp only [exec, execSub, sub256_eq_value, valueOf, pickA_eq_opA, pickB_eq_opB]
  | neg a => simp only [exec, execNeg, neg256_eq_value, valueOf, pickA_eq_opA]
  | shl a n => simp only [exec, execShl, shl256_eq_value, valueOf, pickA_eq_opA]
  | shr a n => simp only [exec, execShr, shr256_eq_value, valueOf, pickA_eq_opA]
  | mul a b => simp only [exec, execMul, mul256_eq_value, valueOf, pickA_eq_opA, pickB_eq_opB]
  | eq a b => simp only [exec, execEq, eq256_eq_value, valueOf, pickA_eq_opA, pickB_eq_opB]
  | ltu a b => simp only [exec, execLtu, ltu256_eq_value, valueOf, pickA_eq_opA, pickB_eq_opB]

end Sys2Proof.Machine
end

section
/-! PROOFS. One step as an equation: the event at the head of `inbox`, applied to the block (R36, R48). -/

namespace Sys2Proof.Machine

/-! ### Words -/

/-- Bit 4 of the word selects operand A (R24, R60). -/
theorem opA_aOfWord (w : CmdWord) (s : State) :
    opA (aOfWord w) s = if w.getLsbD 4 then s.acc else s.ports.pa := by
  have hbit : (w.getLsbD 4 = true) = (w.toNat / 16 % 2 = 1) := by
    rw [BitVec.getLsbD, Nat.testBit_eq_decide_div_mod_eq, decide_eq_true_eq]
  simp only [aOfWord, hbit]
  split <;> rfl

/-- Bit 5 of the word selects operand B (R24, R60). -/
theorem opB_bOfWord (w : CmdWord) (s : State) :
    opB (bOfWord w) s = if w.getLsbD 5 then s.acc else s.ports.pb := by
  have hbit : (w.getLsbD 5 = true) = (w.toNat / 32 % 2 = 1) := by
    rw [BitVec.getLsbD, Nat.testBit_eq_decide_div_mod_eq, decide_eq_true_eq]
  simp only [bOfWord, hbit]
  split <;> rfl

/-- A word that the opcode table reads is legal (R65). -/
theorem decode_of_decodeTableWord {n w : Nat} {i : Instr} (h : decodeTableWord n w = some i) :
    decode (BitVec.ofNat 16 w) = .legal i := by
  unfold decodeTableWord at h
  split at h
  · cases hd : decode (BitVec.ofNat 16 w) with
    | legal j => simpa [hd] using h
    | illegal code => simp [hd] at h
  · cases h

/-! ### Answers -/

theorem answer_of_legal {c : Command} {i : Instr} (acc : Word) (h : decode c.cmd = .legal i) :
    answer acc c = ⟨valueOf i acc c.pa c.pb, Status.ok⟩ := by
  simp only [answer, h]

theorem answer_of_illegal {c : Command} {code : Status} (acc : Word) (h : decode c.cmd = .illegal code) :
    answer acc c = ⟨acc, code⟩ := by
  simp only [answer, h]

theorem decode_illegal_ne_ok {w : CmdWord} {code : Status} (h : decode w = .illegal code) : code ≠ 0b00#2 := by
  rcases decode_illegal_status h with rfl | rfl <;> decide

theorem decode_illegal_ne_three {w : CmdWord} {code : Status} (h : decode w = .illegal code) : code ≠ 0b11#2 := by
  rcases decode_illegal_status h with rfl | rfl <;> decide

/-- No command is answered with status `11` (R68, R180). -/
theorem answer_status_ne_three (acc : Word) (c : Command) : (answer acc c).status ≠ 0b11#2 := by
  cases hd : decode c.cmd with
  | legal i =>
    rw [answer_of_legal acc hd]
    exact (by decide : Status.ok ≠ 0b11#2)
  | illegal code =>
    rw [answer_of_illegal acc hd]
    exact decode_illegal_ne_three hd

/-- Operand A depends on `PA` only where it is selected (R24). -/
theorem pickA_congr {a : SrcA} {pa pa' : Word} (acc : Word) (h : a = .pa → pa = pa') :
    pickA a acc pa = pickA a acc pa' := by
  cases a with
  | pa => rw [h rfl]
  | acc => rfl

/-- Operand B depends on `PB` only where it is selected (R24). -/
theorem pickB_congr {b : SrcB} {pb pb' : Word} (acc : Word) (h : b = .pb → pb = pb') :
    pickB b acc pb = pickB b acc pb' := by
  cases b with
  | pb => rw [h rfl]
  | acc => rfl

/-- A command's value depends on a port only where the command reads it (R24). -/
theorem valueOf_congr_ports {i : Instr} {pa pb pa' pb' : Word} (acc : Word)
    (ha : readsPA i = true → pa = pa') (hb : readsPB i = true → pb = pb') :
    valueOf i acc pa pb = valueOf i acc pa' pb' := by
  cases i with
  | add a b | sub a b | mul a b | eq a b | ltu a b =>
    simp only [readsPA, readsPB, beq_iff_eq] at ha hb
    simp only [valueOf, pickA_congr acc ha, pickB_congr acc hb]
  | neg a | shl a n | shr a n =>
    simp only [readsPA, beq_iff_eq] at ha
    simp only [valueOf, pickA_congr acc ha]

/-- Two commands with the same word that agree on the ports it reads are answered alike (R24). -/
theorem answer_congr_ports {w : CmdWord} {pa pb pa' pb' : Word} (acc : Word)
    (h : ∀ i, decode w = .legal i → (readsPA i = true → pa = pa') ∧ (readsPB i = true → pb = pb')) :
    answer acc ⟨w, pa, pb⟩ = answer acc ⟨w, pa', pb'⟩ := by
  cases hd : decode w with
  | legal i =>
    obtain ⟨ha, hb⟩ := h i hd
    rw [answer_of_legal acc hd, answer_of_legal acc hd, valueOf_congr_ports acc ha hb]
  | illegal code => rw [answer_of_illegal acc hd, answer_of_illegal acc hd]

/-! ### Events -/

/-- The block after a command accepted on its ports: `ACC` and the response both hold the answer (R25, R181). -/
def answerCommand (c : Command) (s : State) : State :=
  respond (answer s.acc c).result (answer s.acc c).status (writeAcc (answer s.acc c).result (accept c s))

/-- The block after a host event (R36, R200). `step_cons` ties it to `step`. -/
def takeEvent : HostEvent → State → State
  | .command c, s => answerCommand c s
  | .reset, s => resetBlock s
  | .cutOff c, s => resetBlock (accept c s)

/-- The responses a host event adds, given `ACC` before it: a reset, or a command cut off by one, adds none (R200). -/
def responsesTo (acc : Word) : HostEvent → List Response
  | .command c => [answer acc c]
  | .reset => []
  | .cutOff _ => []

/-- A step on a legal command runs it (R36). -/
theorem step_of_legal {s : State} {c : Command} {rest : List HostEvent} {i : Instr}
    (hin : s.inbox = .command c :: rest) (hd : decode c.cmd = .legal i) :
    step s = exec i (accept c { s with inbox := rest }) := by
  simpa [hin, hd] using step_cases s

/-- A step on an illegal command answers it (R181). -/
theorem step_of_illegal {s : State} {c : Command} {rest : List HostEvent} {code : Status}
    (hin : s.inbox = .command c :: rest) (hd : decode c.cmd = .illegal code) :
    step s = raiseIllegal code (accept c { s with inbox := rest }) := by
  simpa [hin, hd] using step_cases s

/-- With no event, a step changes nothing (R195, log entry 5). -/
theorem step_nil {s : State} (hin : s.inbox = []) : step s = .next s := by
  simpa [hin] using step_cases s

/-- With an event, a step takes it (R48). -/
theorem step_cons {s : State} {e : HostEvent} {rest : List HostEvent} (hin : s.inbox = e :: rest) :
    step s = .next (takeEvent e { s with inbox := rest }) := by
  cases e with
  | reset => simpa [hin, takeEvent] using step_cases s
  | cutOff c => simpa [hin, takeEvent] using step_cases s
  | command c =>
    cases hd : decode c.cmd with
    | legal i =>
      rw [step_of_legal hin hd, exec_eq_complete, complete, takeEvent, answerCommand, answer_of_legal _ hd]
      rfl
    | illegal code =>
      rw [step_of_illegal hin hd, raiseIllegal, takeEvent, answerCommand, answer_of_illegal _ hd]
      rfl

/-- The step is total (R36). -/
theorem exists_step_next (s : State) : ∃ t, step s = .next t := by
  cases hin : s.inbox with
  | nil => exact ⟨s, step_nil hin⟩
  | cons e rest => exact ⟨_, step_cons hin⟩

@[simp] theorem answerCommand_acc (c : Command) (s : State) :
    (answerCommand c s).acc = (answer s.acc c).result := rfl
@[simp] theorem answerCommand_outputs (c : Command) (s : State) :
    (answerCommand c s).outputs = some (answer s.acc c) := rfl
@[simp] theorem answerCommand_log (c : Command) (s : State) :
    (answerCommand c s).log = s.log ++ [answer s.acc c] := rfl
@[simp] theorem answerCommand_inbox (c : Command) (s : State) : (answerCommand c s).inbox = s.inbox := rfl

@[simp] theorem takeEvent_inbox (e : HostEvent) (s : State) : (takeEvent e s).inbox = s.inbox := by
  cases e <;> rfl

theorem takeEvent_log (e : HostEvent) (s : State) : (takeEvent e s).log = s.log ++ responsesTo s.acc e := by
  cases e with
  | command c => rfl
  | reset => exact (List.append_nil _).symm
  | cutOff c => exact (List.append_nil _).symm

/-- `ACC` after an event depends on the state before it only through `ACC` (R20). -/
theorem takeEvent_acc_congr (e : HostEvent) {s s' : State} (h : s.acc = s'.acc) :
    (takeEvent e s).acc = (takeEvent e s').acc := by
  cases e with
  | command c => simp only [takeEvent, answerCommand_acc, h]
  | reset => rfl
  | cutOff c => rfl

/-- The outputs after an event depend on the state before it only through `ACC` (R20, R33). -/
theorem takeEvent_outputs_congr (e : HostEvent) {s s' : State} (h : s.acc = s'.acc) :
    (takeEvent e s).outputs = (takeEvent e s').outputs := by
  cases e with
  | command c => simp only [takeEvent, answerCommand_outputs, h]
  | reset => rfl
  | cutOff c => rfl

/-! ### The outputs invariant -/

/-- The invariant speaks of no event. -/
theorem OutputsAgree.withInbox {s : State} (h : OutputsAgree s) (rest : List HostEvent) :
    OutputsAgree { s with inbox := rest } :=
  ⟨h.result_is_acc, h.outputs_are_last, h.status_never_three⟩

/-- A block without a response on its outputs needs only its log to be sound. -/
theorem OutputsAgree.of_outputs_none {s : State} (hout : s.outputs = none)
    (hlog : ∀ r ∈ s.log, r.status ≠ 0b11#2) : OutputsAgree s where
  result_is_acc r hr := by simp [hout] at hr
  outputs_are_last r hr := by simp [hout] at hr
  status_never_three := hlog

/-- An answered command sets the outputs, the end of the log and `ACC` alike (R25). -/
theorem OutputsAgree.after_answerCommand {s : State} (h : OutputsAgree s) (c : Command) :
    OutputsAgree (answerCommand c s) where
  result_is_acc r hr := by
    rw [answerCommand_outputs, Option.some.injEq] at hr
    rw [← hr, answerCommand_acc]
  outputs_are_last r hr := by
    rw [answerCommand_outputs] at hr
    rw [answerCommand_log, List.getLast?_concat, hr]
  status_never_three r hr := by
    rw [answerCommand_log, List.mem_append, List.mem_singleton] at hr
    rcases hr with hold | rfl
    · exact h.status_never_three r hold
    · exact answer_status_ne_three s.acc c

/-- Every host event keeps the invariant (R25, R180). -/
theorem OutputsAgree.after_takeEvent {s : State} (h : OutputsAgree s) (e : HostEvent) :
    OutputsAgree (takeEvent e s) := by
  cases e with
  | command c => exact h.after_answerCommand c
  | reset => exact .of_outputs_none rfl h.status_never_three
  | cutOff c => exact .of_outputs_none rfl h.status_never_three

end Sys2Proof.Machine
end

section
/-! PROOFS. The obligations on the state: limbs and operands, responses, steps and runs (10_state.md). -/

namespace Sys2Proof.Machine

/-- Settles O49: the idle step changes nothing, and every host event keeps the invariant. -/
theorem stepKeepsOutputsAgree : Obligations.StepKeepsOutputsAgree := by
  intro s t hs hstep
  cases hin : s.inbox with
  | nil =>
    rw [step_nil hin, Host.Outcome.next.injEq] at hstep
    exact hstep ▸ hs
  | cons e rest =>
    rw [step_cons hin, Host.Outcome.next.injEq] at hstep
    exact hstep ▸ (hs.withInbox rest).after_takeEvent e

/-- Settles O28, by the limbs of a pair and the value of a widened member. -/
theorem operandConstructionKeepsValue : Obligations.OperandConstructionKeepsValue := by
  refine ⟨fun k hk u => ⟨ofNative_toNat hk u, hi_W _ _, ?_⟩, fun k m hk hm x y => ⟨hi_W _ _, lo_W _ _, ?_⟩,
    fun k m hk hm u v huv => ?_⟩
  · apply BitVec.eq_of_toNat_eq
    rw [ofNative_toNat, BitVec.toNat_setWidth_of_le (by omega)]
  · rw [ofPair, W_toNat, BitVec.toNat_setWidth_of_le hk, BitVec.toNat_setWidth_of_le hm]
  · apply BitVec.eq_of_toNat_eq
    rw [ofNative_toNat, ofNative_toNat, huv]

/-- Settles O29: a number below `2^256` splits at `2^128` in one way. -/
theorem limbPairIsUnique : Obligations.LimbPairIsUnique :=
  ⟨fun v => ⟨toNat_eq_limbs v, Nat.le_sub_one_of_lt v.isLt⟩, fun _ _ _ => limbs_of_toNat_eq,
    fun _ _ => eq_iff_limbs, fun h l => ⟨W h l, W_toNat h l⟩⟩

/-- Settles O38: `exec` completes with the value on the old `ACC`, and the three examples are that value on `ACC`
twice. -/
theorem operandsAreReadBeforeAccIsWritten : Obligations.OperandsAreReadBeforeAccIsWritten := by
  have hexec : ∀ (i : Instr) (s : State),
      ∃ t, exec i s = .next t ∧ t.acc = valueOf i s.acc s.ports.pa s.ports.pb :=
    fun i s => ⟨_, exec_eq_complete i s, rfl⟩
  refine ⟨hexec, fun s => ⟨⟨_, rfl, ?_⟩, ⟨_, rfl, ?_⟩, ⟨_, rfl, ?_⟩⟩⟩
  · show (add256 s.acc s.acc).toNat = 2 * s.acc.toNat % 2 ^ 256
    rw [add256_eq_add, BitVec.toNat_add, two_mul]
  · show sub256 s.acc s.acc = ZERO
    rw [sub256_eq_sub, BitVec.sub_self]
    decide
  · show (mul256 s.acc s.acc).toNat = s.acc.toNat ^ 2 % 2 ^ 256
    rw [mul256_eq_mul, BitVec.toNat_mul, sq]

/-- Settles O43, by induction on the number of steps. -/
theorem machineNeverGetsStuck : Obligations.MachineNeverGetsStuck := by
  refine ⟨exists_step_next, fun k => ?_⟩
  induction k with
  | zero => exact fun s => ⟨s, core_run_zero s⟩
  | succ k ih =>
    intro s
    obtain ⟨t, ht⟩ := exists_step_next s
    obtain ⟨u, hu⟩ := ih t
    exact ⟨u, (core_run_succ k ht).trans hu⟩

/-- Settles O44: the block answers with the response it writes to `ACC`, and the answer is by legality. -/
theorem resultIsAccAfterEveryCommand : Obligations.ResultIsAccAfterEveryCommand := by
  intro s c rest hin
  refine ⟨_, (answer s.acc c).status, step_cons hin, rfl, fun i hd => ?_, fun code hd => ?_⟩
  · simp only [takeEvent, answerCommand_acc, answer_of_legal _ hd]
    exact ⟨rfl, trivial⟩
  · simp only [takeEvent, answerCommand_acc, answer_of_illegal _ hd]
    exact ⟨trivial, decode_illegal_ne_ok hd, trivial⟩

/-- Settles O51: the selecting bits read off the word, and the answer depends on a port only where it is read. -/
theorem unreadPortsNeverMatter : Obligations.UnreadPortsNeverMatter := by
  refine ⟨fun w s => ⟨opA_aOfWord w s, opB_bOfWord w s⟩, fun s w pa pb pa' pb' rest hports => ?_⟩
  refine ⟨_, _, step_cons rfl, step_cons rfl, ?_⟩
  simp [takeEvent, answer_congr_ports s.acc hports]

/-- Settles O53, by induction on the number of steps: after one event the outputs agree too. -/
theorem onlyAccIsCarriedOver : Obligations.OnlyAccIsCarriedOver := by
  intro k
  induction k with
  | zero =>
    intro s s' hacc hin
    refine ⟨s, s', [], core_run_zero s, core_run_zero s', hacc, hin, by simp, by simp, ?_⟩
    rintro (hout | ⟨hpos, -⟩)
    · exact hout
    · exact absurd hpos (Nat.lt_irrefl 0)
  | succ k ih =>
    intro s s' hacc hin
    cases hs : s.inbox with
    | nil =>
      obtain ⟨t, t', added, hrun, hrun', hacc', hin', hlog, hlog', hout⟩ := ih s s' hacc hin
      refine ⟨t, t', added, (core_run_succ k (step_nil hs)).trans hrun,
        (core_run_succ k (step_nil (hin ▸ hs))).trans hrun', hacc', hin', hlog, hlog', ?_⟩
      rintro (heq | ⟨-, hne⟩)
      · exact hout (.inl heq)
      · exact absurd rfl hne
    | cons e rest =>
      obtain ⟨t, t', added, hrun, hrun', hacc', hin', hlog, hlog', hout⟩ :=
        ih (takeEvent e { s with inbox := rest }) (takeEvent e { s' with inbox := rest })
          (takeEvent_acc_congr e hacc) (by simp)
      refine ⟨t, t', responsesTo s.acc e ++ added, (core_run_succ k (step_cons hs)).trans hrun,
        (core_run_succ k (step_cons (hin ▸ hs))).trans hrun', hacc', hin', ?_, ?_,
        fun _ => hout (.inl (takeEvent_outputs_congr e hacc))⟩
      · rw [hlog, takeEvent_log, List.append_assoc]
      · rw [hlog', takeEvent_log, List.append_assoc, hacc]

/-- Settles O39: a step on a legal command runs it, and well-formedness adds nothing to legality. -/
theorem stepRunsTheDecodedCommand : Obligations.StepRunsTheDecodedCommand :=
  fun _ _ _ _ hin hd _ => step_of_legal hin hd

/-- Settles O40: the placed word is the next event, and it decodes as the table word does. -/
theorem placedWordIsRunNext : Obligations.PlacedWordIsRunNext := by
  intro s w i htable
  exact step_of_legal rfl (decode_of_decodeTableWord htable)

/-- Settles O47: reset writes `ZERO` and leaves no response on the outputs. -/
theorem resetState : Obligations.ResetState := by
  have hzero : State.reset.acc = ZERO := by decide
  exact ⟨hzero, rfl, fun s => ⟨(resetBlock_acc s).trans hzero.symm, resetBlock_outputs s⟩⟩

/-- Settles O50: after reset there is no response yet. -/
theorem outputsAgreeAfterReset : Obligations.OutputsAgreeAfterReset :=
  .of_outputs_none rfl (fun _ hr => absurd hr List.not_mem_nil)

end Sys2Proof.Machine
end

section
/-! PROOFS. The obligations on `ACC` between commands: port-only commands and the fold over a list of commands
(20_memory.md). -/

namespace Sys2Proof.Machine

/-! ### Commands that do not read `ACC` -/

/-- Operand A depends on `ACC` only where it is selected (R24). -/
theorem pickA_congr_acc {a : SrcA} (acc acc' pa : Word) (h : a ≠ .acc) : pickA a acc pa = pickA a acc' pa := by
  cases a with
  | pa => rfl
  | acc => exact absurd rfl h

/-- Operand B depends on `ACC` only where it is selected (R24). -/
theorem pickB_congr_acc {b : SrcB} (acc acc' pb : Word) (h : b ≠ .acc) : pickB b acc pb = pickB b acc' pb := by
  cases b with
  | pb => rfl
  | acc => exact absurd rfl h

/-- A command that does not read `ACC` has the same value whatever `ACC` holds (R46). -/
theorem valueOf_congr_acc {i : Instr} (acc acc' pa pb : Word) (h : readsAcc i = false) :
    valueOf i acc pa pb = valueOf i acc' pa pb := by
  cases i with
  | add a b | sub a b | mul a b | eq a b | ltu a b =>
    simp only [readsAcc, Bool.or_eq_false_iff, beq_eq_false_iff_ne] at h
    obtain ⟨ha, hb⟩ := h
    simp only [valueOf, pickA_congr_acc acc acc' pa ha, pickB_congr_acc acc acc' pb hb]
  | neg a | shl a n | shr a n =>
    simp only [readsAcc, beq_eq_false_iff_ne] at h
    simp only [valueOf, pickA_congr_acc acc acc' pa h]

/-- A legal command that does not read `ACC` is answered alike whatever `ACC` holds (R46). -/
theorem answer_congr_acc {c : Command} {i : Instr} (acc acc' : Word) (hd : decode c.cmd = .legal i)
    (h : readsAcc i = false) : answer acc c = answer acc' c := by
  rw [answer_of_legal acc hd, answer_of_legal acc' hd, valueOf_congr_acc acc acc' c.pa c.pb h]

/-- Two states with a command answered alike have the same `ACC` and outputs after it (R25). -/
theorem answerCommand_congr {c : Command} {s s' : State} (h : answer s.acc c = answer s'.acc c) :
    (answerCommand c s).acc = (answerCommand c s').acc ∧
      (answerCommand c s).outputs = (answerCommand c s').outputs := by
  simp only [answerCommand_acc, answerCommand_outputs, h, and_self]

/-- Settles O52: the answer does not depend on the `ACC` before it, be that another value or the command's own first
result. -/
theorem portOnlyCommandForgetsAcc : Obligations.PortOnlyCommandForgetsAcc := by
  constructor
  · intro s v c rest i hin hd hport
    exact ⟨_, _, step_cons hin, step_cons hin, answerCommand_congr (answer_congr_acc s.acc v hd hport)⟩
  · intro s c rest i hin hd hport
    exact ⟨_, _, step_cons hin, step_cons rfl, answerCommand_congr (answer_congr_acc _ s.acc hd hport)⟩

/-! ### Runs over a list of commands -/

/-- Every command has one response (R196). -/
@[simp] theorem answers_length (acc : Word) (cs : List Command) : (answers acc cs).length = cs.length := by
  induction cs generalizing acc with
  | nil => rfl
  | cons c cs ih => rw [answers, List.length_cons, ih, List.length_cons]

/-- As many steps as commands take the commands off `inbox`, fold `ACC` over them and record their answers in order
(R48, R208). -/
theorem run_commands (cs : List Command) (s : State) (rest : List HostEvent)
    (hin : s.inbox = cs.map HostEvent.command ++ rest) :
    ∃ t, Sys2Proof.core.run cs.length s = .next t ∧ t.acc = foldAcc s.acc cs ∧
      t.log = s.log ++ answers s.acc cs ∧ t.inbox = rest := by
  induction cs generalizing s with
  | nil => exact ⟨s, core_run_zero s, rfl, (List.append_nil _).symm, hin⟩
  | cons c cs ih =>
    obtain ⟨t, hrun, hacc, hlog, hrest⟩ :=
      ih (answerCommand c { s with inbox := cs.map HostEvent.command ++ rest }) rfl
    refine ⟨t, (core_run_succ cs.length (step_cons hin)).trans hrun, hacc, ?_, hrest⟩
    rw [hlog, answerCommand_log, answerCommand_acc, List.append_assoc]
    rfl

/-- Settles O55, by the run over the commands; the index counts their responses (R29). -/
theorem runIsTheLeftFoldOfItsCommands : Obligations.RunIsTheLeftFoldOfItsCommands := by
  intro cs s rest hin
  obtain ⟨t, hrun, hacc, hlog, hrest⟩ := run_commands cs s rest hin
  refine ⟨t, hrun, Prod.ext hacc hlog, hrest, ?_⟩
  show t.log.length = s.log.length + cs.length
  rw [hlog, List.length_append, answers_length]

end Sys2Proof.Machine
end

section
/-! PROOFS. The command word and its fields, the decoder as one check of the fields, and the encoder as its inverse
(R60 to R67, R72). -/

namespace Sys2Proof

/-! ### Fields -/

theorem cmdOp_toNat (w : CmdWord) : (cmdOp w).toNat = w.toNat % 16 := by
  simp [cmdOp, BitVec.extractLsb'_toNat]

theorem cmdSA_toNat (w : CmdWord) : (cmdSA w).toNat = w.toNat / 16 % 2 := by
  simp [cmdSA, BitVec.extractLsb'_toNat, Nat.shiftRight_eq_div_pow]

theorem cmdSB_toNat (w : CmdWord) : (cmdSB w).toNat = w.toNat / 32 % 2 := by
  simp [cmdSB, BitVec.extractLsb'_toNat, Nat.shiftRight_eq_div_pow]

theorem cmdRSV_toNat (w : CmdWord) : (cmdRSV w).toNat = w.toNat / 64 % 4 := by
  simp [cmdRSV, BitVec.extractLsb'_toNat, Nat.shiftRight_eq_div_pow]

theorem cmdSHAMT_toNat (w : CmdWord) : (cmdSHAMT w).toNat = w.toNat / 256 := by
  have hw := w.isLt
  simp only [cmdSHAMT, BitVec.extractLsb'_toNat, Nat.shiftRight_eq_div_pow]
  omega

/-- Two bit fields side by side, as a number. -/
theorem append_toNat {m k : Nat} (x : BitVec m) (y : BitVec k) : (x ++ y).toNat = x.toNat * 2 ^ k + y.toNat := by
  rw [BitVec.toNat_append, ← Nat.shiftLeft_add_eq_or_of_lt y.isLt, Nat.shiftLeft_eq]

/-- Command words are equal field by field (R60). -/
theorem eq_iff_fields {w v : CmdWord} : w = v ↔ cmdOp w = cmdOp v ∧ cmdSA w = cmdSA v ∧ cmdSB w = cmdSB v ∧
    cmdRSV w = cmdRSV v ∧ cmdSHAMT w = cmdSHAMT v := by
  simp only [← BitVec.toNat_inj, cmdOp_toNat, cmdSA_toNat, cmdSB_toNat, cmdRSV_toNat, cmdSHAMT_toNat]
  omega

/-- The packed word is the sum of its shifted fields (R72). -/
theorem packFields_toNat (op : Op) (sa sb : BitVec 1) (n : Count) : (packFields op sa sb n).toNat =
    (opcodeOf op).toNat + sa.toNat * 16 + sb.toNat * 32 + n.toNat * 256 := by
  simp only [packFields, append_toNat, BitVec.toNat_ofNat]
  omega

/-- The packed word is the bitwise OR of its shifted fields (R72). -/
theorem packFields_eq_or (op : Op) (sa sb : BitVec 1) (n : Count) : packFields op sa sb n =
    (opcodeOf op).setWidth 16 ||| (sa.setWidth 16 <<< 4) ||| (sb.setWidth 16 <<< 5) ||| (n.setWidth 16 <<< 8) := by
  have hsa : sa.toNat <<< 4 < 2 ^ 16 := by omega
  have hsb : sb.toNat <<< 5 < 2 ^ 16 := by omega
  have hn : n.toNat <<< 8 < 2 ^ 16 := by omega
  apply BitVec.eq_of_toNat_eq
  simp only [packFields, BitVec.toNat_append, BitVec.toNat_or, BitVec.toNat_shiftLeft,
    BitVec.toNat_setWidth_of_le (show 4 ≤ 16 by decide), BitVec.toNat_setWidth_of_le (show 1 ≤ 16 by decide),
    BitVec.toNat_setWidth_of_le (show 8 ≤ 16 by decide), Nat.mod_eq_of_lt hsa, Nat.mod_eq_of_lt hsb,
    Nat.mod_eq_of_lt hn]
  simp only [Nat.reduceAdd, BitVec.toNat_ofNat, Nat.zero_mod, Nat.zero_shiftLeft, Nat.zero_or]
  ac_rfl

@[simp] theorem cmdOp_packFields (op : Op) (sa sb : BitVec 1) (n : Count) :
    cmdOp (packFields op sa sb n) = opcodeOf op := by
  apply BitVec.eq_of_toNat_eq
  rw [cmdOp_toNat, packFields_toNat]
  omega

@[simp] theorem cmdSA_packFields (op : Op) (sa sb : BitVec 1) (n : Count) :
    cmdSA (packFields op sa sb n) = sa := by
  apply BitVec.eq_of_toNat_eq
  rw [cmdSA_toNat, packFields_toNat]
  omega

@[simp] theorem cmdSB_packFields (op : Op) (sa sb : BitVec 1) (n : Count) :
    cmdSB (packFields op sa sb n) = sb := by
  apply BitVec.eq_of_toNat_eq
  rw [cmdSB_toNat, packFields_toNat]
  omega

@[simp] theorem cmdRSV_packFields (op : Op) (sa sb : BitVec 1) (n : Count) :
    cmdRSV (packFields op sa sb n) = 0#2 := by
  apply BitVec.eq_of_toNat_eq
  rw [cmdRSV_toNat, packFields_toNat, BitVec.toNat_ofNat]
  omega

@[simp] theorem cmdSHAMT_packFields (op : Op) (sa sb : BitVec 1) (n : Count) :
    cmdSHAMT (packFields op sa sb n) = n := by
  apply BitVec.eq_of_toNat_eq
  rw [cmdSHAMT_toNat, packFields_toNat]
  omega

/-- A word with `RSV = 00` is the pack of its fields (R60). -/
theorem packFields_fields {w : CmdWord} {op : Op} (hop : cmdOp w = opcodeOf op) (hrsv : cmdRSV w = 0#2) :
    packFields op (cmdSA w) (cmdSB w) (cmdSHAMT w) = w := by
  simp [eq_iff_fields, hop, hrsv]

/-! ### The opcode map and the source bits -/

theorem opOfCode_eq_some_iff {c : BitVec 4} {op : Op} : opOfCode c = some op ↔ c = opcodeOf op := by
  revert c
  cases op <;> decide

/-- The upper half of the opcodes is reserved (R63, R66). -/
theorem opOfCode_eq_none_iff {c : BitVec 4} : opOfCode c = none ↔ 8 ≤ c.toNat := by
  revert c
  decide

@[simp] theorem bitOfSrcA_srcAOfBit (b : BitVec 1) : bitOfSrcA (srcAOfBit b) = b := by
  revert b
  decide

@[simp] theorem bitOfSrcB_srcBOfBit (b : BitVec 1) : bitOfSrcB (srcBOfBit b) = b := by
  revert b
  decide

@[simp] theorem srcAOfBit_bitOfSrcA (a : SrcA) : srcAOfBit (bitOfSrcA a) = a := by
  cases a <;> rfl

@[simp] theorem srcBOfBit_bitOfSrcB (b : SrcB) : srcBOfBit (bitOfSrcB b) = b := by
  cases b <;> rfl

@[simp] theorem instrOp_instrOfFields (op : Op) (a : SrcA) (b : SrcB) (n : Count) :
    instrOp (instrOfFields op a b n) = op := by
  cases op <;> rfl

/-! ### The decoder as one check -/

/-- The fields a shape does not use are zero: `SHAMT` outside the shifts, `SB` outside the binary commands (R61,
R67). `decode_of_op` ties it to the decoder. -/
def fieldsFit (op : Op) (sb : BitVec 1) (n : Count) : Bool :=
  match op.shape with
  | .binary => n == 0#8
  | .unary => n == 0#8 && sb == 0#1
  | .shift => sb == 0#1

/-- A reserved opcode is refused before any other check (R64, R66). -/
theorem decode_of_reserved {w : CmdWord} (h : opOfCode (cmdOp w) = none) :
    decode w = .illegal Status.illegalOpcode := by
  simp only [decode, h]

/-- With a defined opcode, the checks left are those of the reserved fields, which share one code (R64, R67). -/
theorem decode_of_op {w : CmdWord} {op : Op} (h : opOfCode (cmdOp w) = some op) :
    decode w = if cmdRSV w = 0#2 ∧ fieldsFit op (cmdSB w) (cmdSHAMT w) = true
      then .legal (instrOfFields op (srcAOfBit (cmdSA w)) (srcBOfBit (cmdSB w)) (cmdSHAMT w))
      else .illegal Status.reservedField := by
  by_cases hrsv : cmdRSV w = 0#2
  · cases hshape : op.shape with
    | binary => simp [decode, h, fieldsFit, hrsv, hshape]
    | unary => by_cases hn : cmdSHAMT w = 0#8 <;> simp [decode, h, fieldsFit, hrsv, hshape, hn]
    | shift => simp [decode, h, fieldsFit, hrsv, hshape]
  · simp [decode, h, hrsv]

/-- What a legal word is: a defined opcode, with the fields its shape does not use at zero (R64). -/
theorem decode_legal_iff {w : CmdWord} {i : Instr} : decode w = .legal i ↔
    opOfCode (cmdOp w) = some (instrOp i) ∧ cmdRSV w = 0#2 ∧
      fieldsFit (instrOp i) (cmdSB w) (cmdSHAMT w) = true ∧
      instrOfFields (instrOp i) (srcAOfBit (cmdSA w)) (srcBOfBit (cmdSB w)) (cmdSHAMT w) = i := by
  constructor
  · intro hd
    cases hop : opOfCode (cmdOp w) with
    | none => simp [decode_of_reserved hop] at hd
    | some op =>
      rw [decode_of_op hop] at hd
      split at hd
      next hfit =>
        obtain rfl := Decoded.legal.inj hd
        simp [hfit]
      next => cases hd
  · rintro ⟨hop, hrsv, hfit, hi⟩
    rw [decode_of_op hop, if_pos ⟨hrsv, hfit⟩, hi]

/-- With a defined opcode, a word is legal exactly where its reserved fields are zero (R64, R67). -/
theorem exists_decode_legal_iff {w : CmdWord} {op : Op} :
    (∃ i, instrOp i = op ∧ decode w = .legal i) ↔
      opOfCode (cmdOp w) = some op ∧ cmdRSV w = 0#2 ∧ fieldsFit op (cmdSB w) (cmdSHAMT w) = true := by
  constructor
  · rintro ⟨i, rfl, hd⟩
    obtain ⟨hop, hrsv, hfit, -⟩ := decode_legal_iff.mp hd
    exact ⟨hop, hrsv, hfit⟩
  · rintro ⟨hop, hrsv, hfit⟩
    exact ⟨_, instrOp_instrOfFields op _ _ _, by rw [decode_of_op hop, if_pos ⟨hrsv, hfit⟩]⟩

/-! ### Decoder and encoder -/

/-- Every command's word is a pack of fields that fit, and the fields make the command (R60, R61). -/
theorem encode_eq_packFields (i : Instr) : ∃ sa sb n, encode i = packFields (instrOp i) sa sb n ∧
    fieldsFit (instrOp i) sb n = true ∧ instrOfFields (instrOp i) (srcAOfBit sa) (srcBOfBit sb) n = i := by
  cases i with
  | add a b | sub a b | mul a b | eq a b | ltu a b =>
    exact ⟨bitOfSrcA a, bitOfSrcB b, 0#8, rfl, rfl, by simp [instrOp, instrOfFields]⟩
  | neg a => exact ⟨bitOfSrcA a, 0#1, 0#8, rfl, rfl, by simp [instrOp, instrOfFields]⟩
  | shl a n | shr a n => exact ⟨bitOfSrcA a, 0#1, n, rfl, rfl, by simp [instrOp, instrOfFields]⟩

/-- Fields that fit are packed by the encoder without loss (R61, R67). -/
theorem encode_instrOfFields {op : Op} {sb : BitVec 1} {n : Count} (sa : BitVec 1) (h : fieldsFit op sb n = true) :
    encode (instrOfFields op (srcAOfBit sa) (srcBOfBit sb) n) = packFields op sa sb n := by
  cases op with
  | add | sub | mul | eq | ltu =>
    simp only [fieldsFit, Op.shape, beq_iff_eq] at h
    simp [instrOfFields, encode, h]
  | neg =>
    simp only [fieldsFit, Op.shape, Bool.and_eq_true, beq_iff_eq] at h
    simp [instrOfFields, encode, h]
  | shl | shr =>
    simp only [fieldsFit, Op.shape, beq_iff_eq] at h
    simp [instrOfFields, encode, h]

/-- Every command decodes from its word (R64, R72). -/
@[simp] theorem decode_encode (i : Instr) : decode (encode i) = .legal i := by
  obtain ⟨sa, sb, n, hword, hfit, hfields⟩ := encode_eq_packFields i
  simp [decode_legal_iff, hword, opOfCode_eq_some_iff, hfit, hfields]

/-- A legal word is the word of its command (R64, R72). -/
theorem encode_of_decode {w : CmdWord} {i : Instr} (h : decode w = .legal i) : encode i = w := by
  obtain ⟨hop, hrsv, hfit, hi⟩ := decode_legal_iff.mp h
  rw [← hi, encode_instrOfFields _ hfit, packFields_fields (opOfCode_eq_some_iff.mp hop) hrsv]

/-- Decoding and encoding are inverse (R64, R72). -/
theorem decode_legal_iff_encode {w : CmdWord} {i : Instr} : decode w = .legal i ↔ encode i = w :=
  ⟨encode_of_decode, fun h => h ▸ decode_encode i⟩

theorem encode_injective : Function.Injective encode := fun i j h =>
  Decoded.legal.inj (by rw [← decode_encode i, h, decode_encode])

/-- Every command is well formed (R61, R62). -/
theorem instr_wellFormed : ∀ i : Instr, i.wellFormed = true
  | .add a b => Laws.WellFormed.add a b
  | .sub a b => Laws.WellFormed.sub a b
  | .neg a => Laws.WellFormed.neg a
  | .shl a n => Laws.WellFormed.shl a n
  | .shr a n => Laws.WellFormed.shr a n
  | .mul a b => Laws.WellFormed.mul a b
  | .eq a b => Laws.WellFormed.eq a b
  | .ltu a b => Laws.WellFormed.ltu a b

/-- Settles O1: the fields of a command's word are the command's, and a legal word has no field beside them. -/
theorem decodeAndEncodeAgree : Obligations.DecodeAndEncodeAgree :=
  ⟨fun i => ⟨instr_wellFormed i, decode_encode i⟩, fun _ _ => encode_of_decode⟩

end Sys2Proof
end

section
/-! PROOFS. The obligations on command words: their fields, the opcode table, the decoder's order and the illegal words
(30_encoding.md, R60 to R72). -/

namespace Sys2Proof

open Machine

/-! ### The command word as a sum of fields -/

/-- Settles O2: the packed word is the sum and the OR of its fields, and the table of forms is that sum at each form. -/
theorem commandWordIsFieldSum : Obligations.CommandWordIsFieldSum := by
  refine ⟨fun op sa sb n => ⟨packFields_toNat op sa sb n, packFields_eq_or op sa sb n⟩, ?_, by decide, by decide, ?_,
    by decide, by decide, by decide⟩
  · intro mk code hmk
    simp only [List.mem_cons, Prod.mk.injEq, List.not_mem_nil, or_false] at hmk
    rcases hmk with ⟨rfl, rfl⟩ | ⟨rfl, rfl⟩ | ⟨rfl, rfl⟩ | ⟨rfl, rfl⟩ | ⟨rfl, rfl⟩ <;> decide
  · intro n
    simp only [encode, packFields_toNat, opcodeOf, bitOfSrcA, BitVec.toNat_ofNat]
    omega

/-! ### The opcode table -/

theorem mem_opcodeTable_iff {r : TableRow} : r ∈ opcodeTable ↔ ∃ op, r = tableRow op := by
  constructor
  · intro hr
    simp only [opcodeTable, List.mem_cons, List.not_mem_nil, or_false] at hr
    rcases hr with rfl | rfl | rfl | rfl | rfl | rfl | rfl | rfl <;> exact ⟨_, rfl⟩
  · rintro ⟨op, rfl⟩
    cases op <;> decide

@[simp] theorem tableRow_op (op : Op) : (tableRow op).op = op := by
  cases op <;> rfl

theorem opcodeTable_filter_op (op : Op) : opcodeTable.filter (fun r => r.op == op) = [tableRow op] := by
  cases op <;> decide

/-- A masked word is compared field by field. -/
theorem and_eq_iff_fields {w m v : CmdWord} : w &&& m = v ↔ cmdOp w &&& cmdOp m = cmdOp v ∧
    cmdSA w &&& cmdSA m = cmdSA v ∧ cmdSB w &&& cmdSB m = cmdSB v ∧ cmdRSV w &&& cmdRSV m = cmdRSV v ∧
    cmdSHAMT w &&& cmdSHAMT m = cmdSHAMT v := by
  simp only [eq_iff_fields, cmdOp, cmdSA, cmdSB, cmdRSV, cmdSHAMT, BitVec.extractLsb'_and]

/-- A row's match has the opcode and zeros (R65). -/
theorem tableRow_matchWord (op : Op) : (tableRow op).matchWord = packFields op 0#1 0#1 0#8 := by
  cases op <;> decide

/-- Every row's mask checks the whole of `OP` and `RSV`, and leaves `SA` open (R65). -/
theorem tableRow_mask_common (op : Op) : cmdOp (tableRow op).mask = BitVec.allOnes 4 ∧
    cmdSA (tableRow op).mask = 0#1 ∧ cmdRSV (tableRow op).mask = BitVec.allOnes 2 := by
  cases op <;> decide

/-- A row's mask checks `SB` and `SHAMT` where its shape does not use them (R65). -/
theorem tableRow_mask_operands (op : Op) :
    cmdSB (tableRow op).mask = (if op.shape = .binary then 0#1 else BitVec.allOnes 1) ∧
    cmdSHAMT (tableRow op).mask = if op.shape = .shift then 0#8 else BitVec.allOnes 8 := by
  cases op <;> decide

/-- A row tells the same of a word as the decoder's checks: the opcode, `RSV = 00`, and the fields its shape does not
use at zero (R65). -/
theorem rowMatches_tableRow_iff {op : Op} {w : CmdWord} : rowMatches (tableRow op) w = true ↔
    opOfCode (cmdOp w) = some op ∧ cmdRSV w = 0#2 ∧ fieldsFit op (cmdSB w) (cmdSHAMT w) = true := by
  obtain ⟨hop, hsa, hrsv⟩ := tableRow_mask_common op
  obtain ⟨hsb, hn⟩ := tableRow_mask_operands op
  rw [rowMatches, beq_iff_eq, and_eq_iff_fields, tableRow_matchWord, hop, hsa, hsb, hrsv, hn, opOfCode_eq_some_iff,
    BitVec.and_allOnes, BitVec.and_allOnes]
  cases hshape : op.shape with
  | binary => simp [fieldsFit, hshape, -BitVec.reduceAllOnes]
  | unary => simp [fieldsFit, hshape, -BitVec.reduceAllOnes, and_comm, and_left_comm]
  | shift => simp [fieldsFit, hshape, -BitVec.reduceAllOnes, and_comm]

/-- The words of a row are the legal words of its operation (R65). -/
theorem rowMatches_tableRow_iff_legal {op : Op} {w : CmdWord} :
    rowMatches (tableRow op) w = true ↔ ∃ i, instrOp i = op ∧ decode w = .legal i :=
  rowMatches_tableRow_iff.trans exists_decode_legal_iff.symm

/-- Settles O3: the words of a row are the legal words of its operation, so the row of the command is the one that
matches. -/
theorem legalWordMatchesExactlyOneRow : Obligations.LegalWordMatchesExactlyOneRow := by
  refine ⟨by decide, fun w i hd => ?_, fun w r hr hmatch => ?_, fun w hnone => ?_⟩
  · rw [← opcodeTable_filter_op (instrOp i)]
    refine List.filter_congr fun r hr => ?_
    obtain ⟨op, rfl⟩ := mem_opcodeTable_iff.mp hr
    rw [Bool.eq_iff_iff, rowMatches_tableRow_iff_legal, tableRow_op, beq_iff_eq]
    constructor
    · rintro ⟨j, rfl, hj⟩
      rw [Decoded.legal.inj (hj.symm.trans hd)]
    · rintro rfl
      exact ⟨i, rfl, hd⟩
  · obtain ⟨op, rfl⟩ := mem_opcodeTable_iff.mp hr
    obtain ⟨i, -, hd⟩ := rowMatches_tableRow_iff_legal.mp hmatch
    exact ⟨i, hd⟩
  · cases hd : decode w with
    | illegal code => exact ⟨code, rfl⟩
    | legal i =>
      have hmatch := rowMatches_tableRow_iff_legal.mpr ⟨i, rfl, hd⟩
      exact absurd hmatch (List.filter_eq_nil_iff.mp hnone _ (mem_opcodeTable_iff.mpr ⟨_, rfl⟩))

/-! ### The decoder on the word as a number -/

theorem opOfCode_cmdOp_eq_none_iff {w : CmdWord} : opOfCode (cmdOp w) = none ↔ 8 ≤ w.toNat % 16 := by
  rw [opOfCode_eq_none_iff, cmdOp_toNat]

theorem opOfCode_cmdOp_eq_some_iff {w : CmdWord} {op : Op} :
    opOfCode (cmdOp w) = some op ↔ w.toNat % 16 = (opcodeOf op).toNat := by
  rw [opOfCode_eq_some_iff, ← BitVec.toNat_inj, cmdOp_toNat]

/-- An opcode in the lower half is defined (R63). -/
theorem exists_op_of_lt {w : CmdWord} (h : w.toNat % 16 < 8) : ∃ op, opOfCode (cmdOp w) = some op :=
  Option.ne_none_iff_exists'.mp fun hnone => absurd (opOfCode_cmdOp_eq_none_iff.mp hnone) (by omega)

theorem cmdRSV_eq_zero_iff {w : CmdWord} : cmdRSV w = 0#2 ↔ w.toNat / 64 % 4 = 0 := by
  rw [← BitVec.toNat_inj, cmdRSV_toNat, BitVec.toNat_ofNat, Nat.zero_mod]

theorem cmdSB_eq_zero_iff {w : CmdWord} : cmdSB w = 0#1 ↔ w.toNat / 32 % 2 = 0 := by
  rw [← BitVec.toNat_inj, cmdSB_toNat, BitVec.toNat_ofNat, Nat.zero_mod]

theorem cmdSHAMT_eq_zero_iff {w : CmdWord} : cmdSHAMT w = 0#8 ↔ w.toNat / 256 = 0 := by
  rw [← BitVec.toNat_inj, cmdSHAMT_toNat, BitVec.toNat_ofNat, Nat.zero_mod]

theorem srcAOfBit_cmdSA (w : CmdWord) : srcAOfBit (cmdSA w) = aOfWord w := by
  simp only [srcAOfBit, aOfWord, ← BitVec.toNat_inj, cmdSA_toNat, BitVec.toNat_ofNat, Nat.reducePow, Nat.reduceMod]

theorem srcBOfBit_cmdSB (w : CmdWord) : srcBOfBit (cmdSB w) = bOfWord w := by
  simp only [srcBOfBit, bOfWord, ← BitVec.toNat_inj, cmdSB_toNat, BitVec.toNat_ofNat, Nat.reducePow, Nat.reduceMod]

theorem cmdSHAMT_eq_countOfWord (w : CmdWord) : cmdSHAMT w = countOfWord w := by
  rw [countOfWord, ← cmdSHAMT_toNat, BitVec.ofNat_toNat, BitVec.setWidth_eq]

/-- With a defined opcode, a word is illegal with status `10` unless `RSV` and the fields its shape does not use are
zero (R67). -/
theorem decode_eq_reservedField_iff {w : CmdWord} {op : Op} (h : opOfCode (cmdOp w) = some op) :
    decode w = .illegal Status.reservedField ↔
      ¬ (cmdRSV w = 0#2 ∧ fieldsFit op (cmdSB w) (cmdSHAMT w) = true) := by
  rw [decode_of_op h]
  split
  next hfit => simp [hfit]
  next hbad => simp [hbad]

/-! ### The legal words, listed -/

/-- Every operation. -/
def allOps : List Op := [.add, .sub, .neg, .shl, .shr, .mul, .eq, .ltu]

/-- Every count. -/
def allCounts : List Count := (List.finRange 256).map BitVec.ofFin

/-- The commands of an operation: one for each choice of the fields its shape uses (R61, R64). `mem_formsOf` ties it to
`instrOp`. -/
def formsOf (op : Op) : List Instr :=
  match op.shape with
  | .binary => ([SrcA.pa, .acc] ×ˢ [SrcB.pb, .acc]).map fun p => instrOfFields op p.1 p.2 0#8
  | .unary => [SrcA.pa, .acc].map fun a => instrOfFields op a .pb 0#8
  | .shift => ([SrcA.pa, .acc] ×ˢ allCounts).map fun p => instrOfFields op p.1 .pb p.2

theorem mem_allOps (op : Op) : op ∈ allOps := by
  cases op <;> decide

theorem mem_allCounts (n : Count) : n ∈ allCounts :=
  List.mem_map.mpr ⟨n.toFin, List.mem_finRange _, rfl⟩

theorem nodup_allCounts : allCounts.Nodup :=
  (List.nodup_finRange 256).map fun _ _ h => congrArg BitVec.toFin h

theorem mem_srcA (a : SrcA) : a ∈ [SrcA.pa, .acc] := by
  cases a <;> decide

theorem mem_srcB (b : SrcB) : b ∈ [SrcB.pb, .acc] := by
  cases b <;> decide

theorem mem_formsOf {op : Op} {i : Instr} : i ∈ formsOf op ↔ instrOp i = op := by
  constructor
  · intro hi
    unfold formsOf at hi
    split at hi <;> obtain ⟨p, -, rfl⟩ := List.mem_map.mp hi <;> exact instrOp_instrOfFields op _ _ _
  · rintro rfl
    cases i with
    | add a b | sub a b | mul a b | eq a b | ltu a b =>
      exact List.mem_map.mpr ⟨(a, b), List.mem_product.mpr ⟨mem_srcA a, mem_srcB b⟩, rfl⟩
    | neg a => exact List.mem_map.mpr ⟨a, mem_srcA a, rfl⟩
    | shl a n | shr a n =>
      exact List.mem_map.mpr ⟨(a, n), List.mem_product.mpr ⟨mem_srcA a, mem_allCounts n⟩, rfl⟩

theorem nodup_formsOf (op : Op) : (formsOf op).Nodup := by
  have hshift : ([SrcA.pa, .acc] ×ˢ allCounts).Nodup := .product (by decide) nodup_allCounts
  cases op with
  | add | sub | mul | eq | ltu | neg => decide
  | shl | shr => exact hshift.map fun p q h => by simpa [instrOfFields, Prod.ext_iff] using h

theorem length_formsOf (op : Op) :
    (formsOf op).length = match op.shape with | .binary => 4 | .unary => 2 | .shift => 512 := by
  unfold formsOf
  split <;> simp [allCounts]

/-- No command is listed twice, within an operation or under two. -/
theorem nodup_flatMap_formsOf : (allOps.flatMap formsOf).Nodup := by
  refine List.nodup_flatMap.mpr ⟨fun op _ => nodup_formsOf op, ?_⟩
  have hops : allOps.Nodup := by decide
  refine hops.imp fun hne i hi hj => hne ?_
  rw [← mem_formsOf.mp hi, mem_formsOf.mp hj]

/-- 20 binary forms, 2 of NEG, 1024 shifts (R64). -/
theorem length_flatMap_formsOf : (allOps.flatMap formsOf).length = 1046 := by
  simp [allOps, length_formsOf, Op.shape]

theorem nodup_map_encode {is : List Instr} (h : is.Nodup) : (is.map encode).Nodup := h.map encode_injective

theorem mem_map_encode {is : List Instr} {w : CmdWord} : w ∈ is.map encode ↔ ∃ i ∈ is, decode w = .legal i := by
  simp only [List.mem_map, decode_legal_iff_encode]

/-! ### The decoder's order and the illegal words -/

/-- Settles O4: the chain is the decoder's one check read condition by condition, and the legal words are the encoded
forms. -/
theorem decoderChecksInOrder : Obligations.DecoderChecksInOrder := by
  refine ⟨fun w => ?_, fun op => ⟨(formsOf op).map encode, nodup_map_encode (nodup_formsOf op),
      (List.length_map _).trans (length_formsOf op), fun w => ?_⟩,
    (allOps.flatMap formsOf).map encode, nodup_map_encode nodup_flatMap_formsOf,
      (List.length_map _).trans length_flatMap_formsOf, fun w => ?_⟩
  · by_cases hres : 8 ≤ w.toNat % 16
    · rw [if_pos hres, decode_of_reserved (opOfCode_cmdOp_eq_none_iff.mpr hres)]
      rfl
    · obtain ⟨op, hop⟩ := exists_op_of_lt (not_le.mp hres)
      have hk := opOfCode_cmdOp_eq_some_iff.mp hop
      rw [if_neg hres, decode_of_op hop, srcAOfBit_cmdSA, srcBOfBit_cmdSB]
      simp only [ne_eq, ← cmdRSV_eq_zero_iff, ← cmdSB_eq_zero_iff, ← cmdSHAMT_eq_zero_iff, ite_not, ite_and, hk]
      cases op <;>
        simp [opcodeOf, fieldsFit, Op.shape, ite_and, instrOfFields, cmdSHAMT_eq_countOfWord, Status.reservedField]
  · simp only [mem_map_encode, mem_formsOf]
  · simp [mem_map_encode, mem_formsOf, mem_allOps]

/-- Settles O5: a reserved opcode is refused first, and the step answers it with `ACC` kept. -/
theorem reservedOpcodeAnswersStatusOne : Obligations.ReservedOpcodeAnswersStatusOne := by
  intro w hres
  have hd : decode w = .illegal 0b01#2 := decode_of_reserved (opOfCode_cmdOp_eq_none_iff.mpr hres)
  refine ⟨hd, fun s pa pb rest hin => ⟨_, step_of_illegal hin hd, respond_acc _ _ _, respond_outputs _ _ _⟩⟩

/-- Settles O6: with a defined opcode the fields that must be zero are `RSV` and those the shape does not use. -/
theorem reservedFieldAnswersStatusTwo : Obligations.ReservedFieldAnswersStatusTwo := by
  intro w hlt
  obtain ⟨op, hop⟩ := exists_op_of_lt hlt
  have hk := opOfCode_cmdOp_eq_some_iff.mp hop
  show decode w = .illegal Status.reservedField ↔ _
  rw [decode_eq_reservedField_iff hop, not_and_or]
  simp only [ne_eq, ← cmdRSV_eq_zero_iff, ← cmdSB_eq_zero_iff, ← cmdSHAMT_eq_zero_iff, hk]
  refine or_congr_right ?_
  cases op with
  | add | sub | mul | eq | ltu => simp [fieldsFit, Op.shape, opcodeOf]
  | neg => simp [fieldsFit, Op.shape, opcodeOf, not_and_or, -not_and]
  | shl | shr => simp [fieldsFit, Op.shape, opcodeOf]

/-- Settles O8, by running the decoder on the ten words. -/
theorem writtenWordsDecodeRight : Obligations.WrittenWordsDecodeRight := by
  refine ⟨?_, ?_, ?_, ?_, ?_, ?_, ?_, ?_, ?_, ?_⟩ <;> decide

end Sys2Proof
end

section
/-! PROOFS. The obligations on command lines (30_encoding.md, R61, R62, R70). -/

namespace Sys2Proof

/-! ### Lines -/

theorem srcA?_name (a : SrcA) : a.name.srcA? = some a := by
  cases a <;> rfl

theorem srcB?_name (b : SrcB) : b.name.srcB? = some b := by
  cases b <;> rfl

theorem exists_srcA_of_isSome {x : OperandName} (h : x.srcA?.isSome = true) : ∃ a : SrcA, x = a.name := by
  cases x with
  | pa => exact ⟨.pa, rfl⟩
  | pb => cases h
  | acc => exact ⟨.acc, rfl⟩

theorem exists_srcB_of_isSome {x : OperandName} (h : x.srcB?.isSome = true) : ∃ b : SrcB, x = b.name := by
  cases x with
  | pa => cases h
  | pb => exact ⟨.pb, rfl⟩
  | acc => exact ⟨.acc, rfl⟩

/-- A command is read back from the line that writes it (R70). -/
theorem toInstr?_toLine (i : Instr) : i.toLine.toInstr? = some i := by
  have hwf : i.toLine.wellFormed = true := instr_wellFormed i
  rw [AsmLine.toInstr?, if_pos hwf]
  cases i <;> simp [Instr.toLine, srcA?_name, srcB?_name]

/-- A line is read only if it passes the checks (R70). -/
theorem wellFormed_of_toInstr? {l : AsmLine} {i : Instr} (h : l.toInstr? = some i) : l.wellFormed = true := by
  by_contra hbad
  rw [AsmLine.toInstr?, if_neg hbad] at h
  cases h

/-- A count that passes its check is one of the counts (R62). -/
theorem exists_count_of_le {n : Nat} (h : n ≤ 255) : ∃ k : Count, n = k.toNat :=
  ⟨BitVec.ofNat 8 n, by rw [BitVec.toNat_ofNat]; omega⟩

/-- The line of a command shows the fields its shape uses and no other (R61, R70). -/
theorem toLine_instrOfFields (op : Op) (a : SrcA) (b : SrcB) (n : Count) : (instrOfFields op a b n).toLine =
    match op.shape with
    | .binary => ⟨op, a.name, some b.name, none⟩
    | .unary => ⟨op, a.name, none, none⟩
    | .shift => ⟨op, a.name, none, some n.toNat⟩ := by
  cases op <;> rfl

/-- A line that passes the checks is the line of a command (R61, R70). -/
theorem exists_toLine_of_wellFormed {l : AsmLine} (h : l.wellFormed = true) : ∃ i : Instr, i.toLine = l := by
  obtain ⟨op, x, y, c⟩ := l
  simp only [AsmLine.wellFormed, Bool.and_eq_true, AsmLine.firstOperandFits, AsmLine.secondOperandFits,
    AsmLine.countFits] at h
  obtain ⟨⟨hx, hy⟩, hc⟩ := h
  obtain ⟨a, rfl⟩ := exists_srcA_of_isSome hx
  cases hshape : op.shape with
  | binary =>
    cases y with
    | none => simp [hshape] at hy
    | some z =>
      obtain ⟨b, rfl⟩ := exists_srcB_of_isSome (x := z) (by simpa [hshape] using hy)
      have hnone : c = none := by simpa [hshape] using hc
      exact ⟨instrOfFields op a b 0#8, by simp [toLine_instrOfFields, hshape, hnone]⟩
  | unary =>
    have hy : y = none := by simpa [hshape] using hy
    have hc : c = none := by simpa [hshape] using hc
    exact ⟨instrOfFields op a .pb 0#8, by simp [toLine_instrOfFields, hshape, hy, hc]⟩
  | shift =>
    have hy : y = none := by simpa [hshape] using hy
    cases c with
    | none => simp [hshape] at hc
    | some n =>
      obtain ⟨k, rfl⟩ := exists_count_of_le (n := n) (by simpa [hshape] using hc)
      exact ⟨instrOfFields op a .pb k, by simp [toLine_instrOfFields, hshape, hy]⟩

/-- A count above 255 fails its check, whatever the operation (R62, R70). -/
theorem wellFormed_count_gt {op : Op} {a : OperandName} {b : Option OperandName} {n : Nat} (h : 255 < n) :
    (AsmLine.mk op a b (some n)).wellFormed = false := by
  have hcount : (AsmLine.mk op a b (some n)).countFits = false := by
    cases hshape : op.shape with
    | binary => simp [AsmLine.countFits, hshape]
    | unary => simp [AsmLine.countFits, hshape]
    | shift => simpa [AsmLine.countFits, hshape] using h
  rw [AsmLine.wellFormed, hcount, Bool.and_false]

/-- Settles O9: the lines that pass the checks are the lines of commands. -/
theorem linesReadBackAndCountsAreNotReduced : Obligations.LinesReadBackAndCountsAreNotReduced := by
  refine ⟨fun l => ⟨fun h => ?_, fun h => ?_⟩, toInstr?_toLine, fun l i h => ?_, fun op a b n hn => ?_⟩
  · obtain ⟨i, hi⟩ := Option.isSome_iff_exists.mp h
    exact wellFormed_of_toInstr? hi
  · obtain ⟨i, rfl⟩ := exists_toLine_of_wellFormed h
    rw [toInstr?_toLine, Option.isSome_some]
  · obtain ⟨j, rfl⟩ := exists_toLine_of_wellFormed (wellFormed_of_toInstr? h)
    rw [Option.some.inj ((toInstr?_toLine j).symm.trans h)]
  · rw [AsmLine.toInstr?, wellFormed_count_gt hn, if_neg Bool.false_ne_true]

end Sys2Proof
end

section
/-! PROOFS. The obligations on the operation column and the pseudo-instructions (30_encoding.md, R63, R71). -/

namespace Sys2Proof.Machine

/-- Completing a command writes its value and has the frame of a completed command (R21, R25). -/
theorem complete_completedFrom (v : Word) (s : State) : ∃ t, complete v s = .next t ∧ t.acc = v ∧ CompletedFrom s t :=
  ⟨_, rfl, rfl, rfl, rfl, rfl, rfl⟩

/-- Settles O54: `exec` completes with the operation's value, and completing has the frame. -/
theorem datapathMeetsTheValueLevel : Obligations.DatapathMeetsTheValueLevel := by
  intro i s
  rw [exec_eq_complete]
  exact complete_completedFrom _ s

/-- A step on an assembled line answers `(value, 00)`, with the line's own values on the ports it names and the host's
on the others (R25, R70). -/
theorem step_assembled {x : Assembled} {s : State} {pa pb : Word} {rest : List HostEvent}
    (hin : s.inbox = .command (assembledCommand x pa pb) :: rest) :
    ∃ t, step s = .next t ∧ t.outputs = some ⟨t.acc, 0b00#2⟩ ∧
      t.acc = valueOf x.instr s.acc (x.pa.getD pa) (x.pb.getD pb) :=
  ⟨_, (step_of_legal hin (decode_encode x.instr)).trans (exec_eq_complete _ _), rfl, rfl⟩

/-- Settles O10: each pseudo-instruction's meaning is the value of its expansion with its port data. -/
theorem pseudoInstructionsDoWhatTheTableSays : Obligations.PseudoInstructionsDoWhatTheTableSays := by
  refine ⟨by decide, rfl, rfl, rfl, rfl, rfl, rfl, rfl, rfl, ⟨rfl, rfl, rfl⟩, fun p s x y rest hin => ?_⟩
  obtain ⟨t, hstep, hout, hacc⟩ := step_assembled hin
  refine ⟨t, hstep, hout, ?_⟩
  cases p with
  | nop | lda => exact hacc.trans ((shl256_eq_value _ 0#8).symm.trans (if_pos rfl))
  | clr => exact hacc.trans ((sub256_eq_value s.acc s.acc).symm.trans (by rw [sub256_eq_sub, BitVec.sub_self]))
  | dbl =>
    have hsum : t.acc = s.acc + s.acc := hacc.trans ((add256_eq_value _ _).symm.trans (add256_eq_add _ _))
    show t.acc.toNat = 2 * s.acc.toNat % 2 ^ 256
    rw [hsum, BitVec.toNat_add, two_mul]
  | sqr =>
    have hprod : t.acc = s.acc * s.acc := hacc.trans ((mul256_eq_value _ _).symm.trans (mul256_eq_mul _ _))
    show t.acc.toNat = s.acc.toNat ^ 2 % 2 ^ 256
    rw [hprod, BitVec.toNat_mul, sq]
  | inc =>
    have hsum : t.acc = s.acc + ONE := hacc.trans ((add256_eq_value _ _).symm.trans (add256_eq_add _ _))
    show t.acc.toNat = (s.acc.toNat + 1) % 2 ^ 256
    rw [hsum, BitVec.toNat_add, ONE_toNat]
  | dec =>
    have hdiff : t.acc = s.acc - ONE := hacc.trans ((sub256_eq_value _ _).symm.trans (sub256_eq_sub _ _))
    show (t.acc.toNat : Int) = ((s.acc.toNat : Int) - 1) % 2 ^ 256
    rw [hdiff, BitVec.toNat_sub, ONE_toNat]
    omega
  | not =>
    have hdiff : t.acc = MAX - s.acc := hacc.trans ((sub256_eq_value _ _).symm.trans (sub256_eq_sub _ _))
    have hmax : MAX = BitVec.allOnes 256 := by decide
    show t.acc = ~~~s.acc
    rw [hdiff, hmax, BitVec.allOnes_sub_eq_not]

end Sys2Proof.Machine
end

section
/-! PROOFS. The obligations on the adder, the subtractor and the negator (40_addsub.md, R81, R82, R85 to R87). -/

namespace Sys2Proof.Machine

/-! ### Between the limbs -/

/-- The low 128 bits of the limb sum are the wrapping sum (R81, R83). -/
theorem limbSum_low (a b : Limb) : (limbSum a b).extractLsb' 0 128 = a + b := by
  apply BitVec.eq_of_toNat_eq
  rw [BitVec.extractLsb'_toNat, limbSum_toNat, Nat.shiftRight_zero, BitVec.toNat_add]

/-- The carry as it enters the higher limb (R81). -/
theorem limbCarry_setWidth (a b : Limb) :
    (limbCarry a b).setWidth 128 = if 2 ^ 128 ≤ a.toNat + b.toNat then 1#128 else 0#128 := by
  have ha := a.isLt
  have hb := b.isLt
  apply BitVec.eq_of_toNat_eq
  rw [BitVec.toNat_setWidth, limbCarry_toNat, apply_ite BitVec.toNat, BitVec.toNat_ofNat, BitVec.toNat_ofNat]
  split <;> omega

/-- The borrow as it is taken from the higher limb (R85). -/
theorem borrowN_setWidth (a b : Limb) :
    (borrowN 128 a b).setWidth 128 = if a.toNat < b.toNat then 1#128 else 0#128 := by
  rw [borrowN]
  split <;> rfl

/-- Nothing exceeds the limb of ones, so taking from it never borrows (R86). -/
theorem borrowN_MAX_128 (a : Limb) : borrowN 128 MAX_128 a = 0#1 := by
  have ha : a.toNat ≤ MAX_128.toNat := by
    rw [MAX_128, BitVec.toNat_allOnes]
    exact Nat.le_sub_one_of_lt a.isLt
  exact if_neg (not_lt.mpr ha)

/-! ### Value laws -/

theorem add256_toNat (a b : Word) : (add256 a b).toNat = (a.toNat + b.toNat) % 2 ^ 256 := by
  rw [add256_eq_add, BitVec.toNat_add]

theorem sub256_toInt (a b : Word) :
    ((sub256 a b).toNat : Int) = ((a.toNat : Int) - (b.toNat : Int)) % 2 ^ 256 := by
  rw [sub256_eq_sub, BitVec.toNat_sub]
  omega

theorem neg256_toNat (a : Word) : (neg256 a).toNat = (2 ^ 256 - a.toNat) % 2 ^ 256 := by
  rw [neg256_eq_neg, BitVec.toNat_neg]

/-! ### Laws of the 256-bit group -/

theorem ZERO_eq_zero : ZERO = 0#256 := by decide

theorem MAX_eq_allOnes : MAX = BitVec.allOnes 256 := by decide

theorem add256_MAX_ONE : add256 MAX ONE = ZERO := by decide

theorem sub256_ZERO_ONE : sub256 ZERO ONE = MAX := by decide

theorem neg256_ONE : neg256 ONE = MAX := by decide

theorem neg256_ZERO : neg256 ZERO = ZERO := by decide

theorem sub256_self (a : Word) : sub256 a a = ZERO := by
  rw [sub256_eq_sub, BitVec.sub_self, ZERO_eq_zero]

theorem neg256_neg256 (a : Word) : neg256 (neg256 a) = a := by
  rw [neg256_eq_neg, neg256_eq_neg, BitVec.neg_neg]

/-- Taking from `MAX` complements every bit (R86). -/
theorem sub256_MAX_left (a : Word) : sub256 MAX a = ~~~a := by
  rw [sub256_eq_sub, MAX_eq_allOnes, BitVec.allOnes_sub_eq_not]

/-- Subtracting is adding the negation (R87). -/
theorem sub256_eq_add256_neg256 (a b : Word) : sub256 a b = add256 a (neg256 b) := by
  rw [sub256_eq_sub, add256_eq_add, neg256_eq_neg, BitVec.sub_eq_add_neg]

/-! ### The obligations -/

/-- Settles O11: the limbs are read off the adder's pair, and the value is that of `BitVec` addition. -/
theorem adderAddsByLimbs : Obligations.AdderAddsByLimbs := by
  intro a b
  refine ⟨?_, ?_, add256_toNat a b⟩
  · rw [add256, lo_W, limbSum_low]
  · rw [add256, hi_W, limbCarry_setWidth]

/-- Settles O12: the adder is `BitVec` addition, whose laws these are. -/
theorem adderLaws : Obligations.AdderLaws := by
  refine ⟨fun a b => ?_, fun a b c => ?_, fun a => ?_, add256_MAX_ONE⟩
  · rw [add256_eq_add, add256_eq_add, BitVec.add_comm]
  · simp only [add256_eq_add, BitVec.add_assoc]
  · rw [add256_eq_add, ZERO_eq_zero, BitVec.add_zero]

/-- Settles O13: the limbs are read off the subtractor's pair; borrowing before or after the limb difference is
commutativity in the higher limb. -/
theorem subtractorSubtractsByLimbs : Obligations.SubtractorSubtractsByLimbs := by
  intro a b bw
  have hhi : hi (sub256 a b) = hi a - bw - hi b := by rw [sub256, hi_W, borrowN_setWidth]
  refine ⟨?_, hhi, ?_, sub256_toInt a b⟩
  · rw [sub256, lo_W]
  · rw [hhi, sub_right_comm]

/-- Settles O14: both limbs of `MAX` are all ones, so the subtraction never borrows and complements. -/
theorem negatorIsComplementPlusOne : Obligations.NegatorIsComplementPlusOne := by
  intro a
  refine ⟨rfl, sub256_MAX_left a, ?_, ?_, neg256_toNat a⟩
  · rw [MAX, lo_W, borrowN_MAX_128]
  · rw [MAX, hi_W, borrowN_MAX_128]

/-- Settles O15: both units are the `BitVec` operations, where subtracting is adding the negation. -/
theorem subtractionAgreesWithNegation : Obligations.SubtractionAgreesWithNegation := by
  refine ⟨sub256_eq_add256_neg256, sub256_self, sub256_ZERO_ONE, neg256_ZERO, neg256_neg256, fun a => ?_,
    neg256_ONE⟩
  rw [← sub256_eq_add256_neg256, sub256_self]

end Sys2Proof.Machine
end

section
/-! PROOFS. What the obligations on single commands share: the row of each operation, and the step of a command that is
written out (R25, R65, R67). -/

namespace Sys2Proof.Machine

/-- The row of an operation encodes it: its words decode to the command of their fields, and the other words with its
opcode are refused (R65, R67). -/
theorem encodedByRow_tableRow (op : Op) : EncodedByRow (tableRow op).matchWord (tableRow op).mask
    (fun w => instrOfFields op (aOfWord w) (bOfWord w) (countOfWord w)) := by
  intro w
  have hrow : w &&& (tableRow op).mask = (tableRow op).matchWord ↔ rowMatches (tableRow op) w = true :=
    beq_iff_eq.symm
  rw [ne_eq, hrow, rowMatches_tableRow_iff]
  refine ⟨fun ⟨hop, hfit⟩ => ?_, fun hcode hmiss => ?_⟩
  · rw [decode_of_op hop, if_pos hfit, srcAOfBit_cmdSA, srcBOfBit_cmdSB, cmdSHAMT_eq_countOfWord]
  · have hmatch : (tableRow op).matchWord.toNat = (opcodeOf op).toNat := by cases op <;> rfl
    have hop := opOfCode_cmdOp_eq_some_iff.mpr (hcode.trans hmatch)
    exact (decode_eq_reservedField_iff hop).mpr fun hfit => hmiss ⟨hop, hfit⟩

/-- A command word writes the value of its command, where that does not depend on `ACC` (R25, R63). -/
theorem commandWrites_of_valueOf {cmd : CmdWord} {i : Instr} {pa pb v : Word} (hd : decode cmd = .legal i)
    (hv : ∀ acc, valueOf i acc pa pb = v) : CommandWrites cmd pa pb v := by
  intro s rest hin
  obtain ⟨t, ht, hacc, hout, -⟩ :=
    complete_completedFrom (valueOf i s.acc pa pb) (accept ⟨cmd, pa, pb⟩ { s with inbox := rest })
  rw [hv] at hacc
  exact ⟨t, (step_of_legal hin hd).trans ((exec_eq_complete _ _).trans ht), hacc, hacc ▸ hout⟩

end Sys2Proof.Machine
end

section
/-! PROOFS. The obligations on the commands ADD, SUB and NEG (40_addsub.md, R80, R84, R88). -/

namespace Sys2Proof.Machine

/-! ### What each command does -/

theorem exec_add_completes (a : SrcA) (b : SrcB) (s : State) : ∃ t, exec (.add a b) s = .next t ∧
    t.acc = add256 (opA a s) (opB b s) ∧ CompletedFrom s t :=
  complete_completedFrom _ s

theorem exec_sub_completes (a : SrcA) (b : SrcB) (s : State) : ∃ t, exec (.sub a b) s = .next t ∧
    t.acc = sub256 (opA a s) (opB b s) ∧ CompletedFrom s t :=
  complete_completedFrom _ s

theorem exec_neg_completes (a : SrcA) (s : State) : ∃ t, exec (.neg a) s = .next t ∧
    t.acc = neg256 (opA a s) ∧ CompletedFrom s t :=
  complete_completedFrom _ s

/-- `SUB` leaves the difference in `ACC` (R84). -/
theorem exec_sub_acc (a : SrcA) (b : SrcB) (s : State) : ∃ t, exec (.sub a b) s = .next t ∧
    t.acc = sub256 (opA a s) (opB b s) := by
  obtain ⟨t, ht, hacc, -⟩ := exec_sub_completes a b s
  exact ⟨t, ht, hacc⟩

/-- Every run of `NEG` leaves the negation in `ACC` (R88). -/
theorem acc_of_exec_neg {a : SrcA} {s t : State} (h : exec (.neg a) s = .next t) : t.acc = neg256 (opA a s) := by
  obtain ⟨hacc, -⟩ := complete_next h
  exact hacc

/-- The negator's one nonzero fixed point is `2^255` (R88). -/
theorem neg256_fixed_nonzero_iff (a : Word) :
    (a ≠ ZERO ∧ neg256 a = a) ↔ a = W 0x80000000000000000000000000000000#128 0#128 := by
  have ha := a.isLt
  have half : (W 0x80000000000000000000000000000000#128 0#128).toNat = 2 ^ 255 := by decide
  rw [ne_eq, ← BitVec.toNat_inj, ← BitVec.toNat_inj, ← BitVec.toNat_inj, neg256_toNat, ZERO_toNat, half]
  omega

/-! ### The obligations -/

/-- Settles O30: the row is the table's, the effect is the adder's, and the example is `MAX + ONE`. -/
theorem addCommand : Obligations.AddCommand := by
  refine ⟨encodedByRow_tableRow .add, fun a b s => ?_, ⟨add256_MAX_ONE, by decide, by decide, by decide,
    fun s => ?_⟩, ?_⟩
  · obtain ⟨t, ht, hacc, hfrom⟩ := exec_add_completes a b s
    exact ⟨t, ht, hacc, by rw [hacc, add256_toNat], hfrom⟩
  · obtain ⟨t, ht, hacc, -⟩ := exec_add_completes .acc .acc s
    refine ⟨t, ht, ?_⟩
    rw [hacc, add256_toNat, opA, opB, two_mul]
  · have hd : decode 0x0000#16 = .legal (.add .pa .pb) := by decide
    exact commandWrites_of_valueOf hd fun _ => (add256_eq_value MAX ONE).symm.trans add256_MAX_ONE

/-- Settles O31: the row is the table's, the effect is the subtractor's, and the example is `ZERO - ONE`. -/
theorem subCommand : Obligations.SubCommand := by
  refine ⟨encodedByRow_tableRow .sub, fun a b s => ?_, ⟨sub256_ZERO_ONE, sub256_self, fun s => ?_, by decide,
    by decide, exec_sub_acc .pa .acc, exec_sub_acc .acc .pb⟩, ?_⟩
  · obtain ⟨t, ht, hacc, hfrom⟩ := exec_sub_completes a b s
    exact ⟨t, ht, hacc, by rw [hacc, sub256_toInt], hfrom⟩
  · obtain ⟨t, ht, hacc⟩ := exec_sub_acc .acc .acc s
    exact ⟨t, ht, hacc.trans (sub256_self s.acc)⟩
  · have hd : decode 0x0001#16 = .legal (.sub .pa .pb) := by decide
    exact commandWrites_of_valueOf hd fun _ => (sub256_eq_value ZERO ONE).symm.trans sub256_ZERO_ONE

/-- Settles O32: the row is the table's, the effect is the negator's, and the example is the negation of `ONE`, which
reads no `PB`. -/
theorem negCommand : Obligations.NegCommand := by
  refine ⟨encodedByRow_tableRow .neg, fun a s => ?_, ⟨neg256_ZERO, neg256_ONE, by decide, neg256_fixed_nonzero_iff,
    by decide, fun s t u hst htu => ?_⟩, fun pb => ?_⟩
  · obtain ⟨t, ht, hacc, hfrom⟩ := exec_neg_completes a s
    exact ⟨t, ht, hacc, by rw [hacc, neg256_toNat], hfrom⟩
  · rw [acc_of_exec_neg htu, opA, acc_of_exec_neg hst, opA, neg256_neg256]
  · have hd : decode 0x0002#16 = .legal (.neg .pa) := by decide
    exact commandWrites_of_valueOf hd fun _ => (neg256_eq_value ONE).symm.trans neg256_ONE

end Sys2Proof.Machine
end

section
/-! PROOFS. The obligations on the shifters (41_shift.md, R110, R111, R114, R116). -/

namespace Sys2Proof.Machine

/-! ### The branches of the case split -/

/-- The zero count shifts nothing (R112, R114). -/
theorem shl256_zero (a : Word) : shl256 a 0#8 = a := if_pos rfl

/-- The zero count shifts nothing (R112, R114). -/
theorem shr256_zero (a : Word) : shr256 a 0#8 = a := if_pos rfl

/-- Counts `1..127` add a cross-limb term to the higher limb (R110). -/
theorem shl256_of_lt {n : Count} (a : Word) (hzero : n.toNat ≠ 0) (hn : n.toNat < 128) :
    shl256 a n = W ((hi a <<< n.toNat) ||| (lo a >>> (128 - n.toNat))) (lo a <<< n.toNat) := by
  rw [shl256, if_neg hzero, if_pos hn]

/-- Counts from 128 on leave only the lower limb, in the higher one's place (R110). -/
theorem shl256_of_ge {n : Count} (a : Word) (hn : 128 ≤ n.toNat) :
    shl256 a n = W (lo a <<< (n.toNat - 128)) 0#128 := by
  rw [shl256, if_neg (by omega), if_neg (not_lt.mpr hn)]

/-- Counts `1..127` add a cross-limb term to the lower limb (R111). -/
theorem shr256_of_lt {n : Count} (a : Word) (hzero : n.toNat ≠ 0) (hn : n.toNat < 128) :
    shr256 a n = W (hi a >>> n.toNat) ((lo a >>> n.toNat) ||| (hi a <<< (128 - n.toNat))) := by
  rw [shr256, if_neg hzero, if_pos hn]

/-- Counts from 128 on leave only the higher limb, in the lower one's place (R111). -/
theorem shr256_of_ge {n : Count} (a : Word) (hn : 128 ≤ n.toNat) :
    shr256 a n = W 0#128 (hi a >>> (n.toNat - 128)) := by
  rw [shr256, if_neg (by omega), if_neg (not_lt.mpr hn)]

/-- The lower limb moves whole (R116). -/
theorem shl256_128 (a : Word) : shl256 a 128#8 = W (lo a) 0#128 :=
  (shl256_of_ge a (by decide)).trans (congrArg (W · 0#128) (BitVec.shiftLeft_zero (lo a)))

/-- The higher limb moves whole (R116). -/
theorem shr256_128 (a : Word) : shr256 a 128#8 = W 0#128 (hi a) :=
  (shr256_of_ge a (by decide)).trans (congrArg (W 0#128) (BitVec.ushiftRight_zero (hi a)))

/-! ### Bits left at the ends of a limb -/

theorem limb_shiftLeft_127 (x : Limb) : x <<< 127 = BitVec.ofNat 128 (x.toNat % 2 * 2 ^ 127) := by
  apply BitVec.eq_of_toNat_eq
  rw [BitVec.toNat_shiftLeft, BitVec.toNat_ofNat, Nat.shiftLeft_eq]
  omega

theorem limb_ushiftRight_127 (x : Limb) : x >>> 127 = BitVec.ofNat 128 (x.toNat / 2 ^ 127) := by
  rw [← Nat.shiftRight_eq_div_pow, ← BitVec.toNat_ushiftRight, BitVec.ofNat_toNat, BitVec.setWidth_eq]

/-! ### Bits and round trips -/

/-- Each bit of a left shift is the bit `n` places below it, or 0 (R114). -/
theorem shl256_getLsbD (a : Word) (n : Count) {i : Nat} (hlt : i < 256) :
    (shl256 a n).getLsbD i = (decide (n.toNat ≤ i) && a.getLsbD (i - n.toNat)) := by
  simp only [shl256_eq_shiftLeft, BitVec.getLsbD_shiftLeft, hlt, decide_true, Bool.true_and, ← decide_not, not_lt]

/-- Each bit of a right shift is the bit `n` places above it (R114). -/
theorem shr256_getLsbD (a : Word) (n : Count) (i : Nat) : (shr256 a n).getLsbD i = a.getLsbD (i + n.toNat) := by
  rw [shr256_eq_ushiftRight, BitVec.getLsbD_ushiftRight, Nat.add_comm]

/-- Left then right clears the top `n` bits: the modulus of the multiplication is divided too (R114). -/
theorem shr256_shl256_toNat (a : Word) (n : Count) :
    (shr256 (shl256 a n) n).toNat = a.toNat % 2 ^ (256 - n.toNat) := by
  have hmodulus : 2 ^ (256 - n.toNat) * 2 ^ n.toNat = 2 ^ 256 := Nat.pow_sub_mul_pow 2 n.isLt.le
  rw [shr256_toNat, shl256_toNat, ← hmodulus, Nat.mul_mod_mul_right, Nat.mul_div_cancel _ (Nat.two_pow_pos _)]

/-- Right then left clears the low `n` bits: a quotient times its divisor is the value less the remainder (R114). -/
theorem shl256_shr256_toNat (a : Word) (n : Count) :
    (shl256 (shr256 a n) n).toNat = a.toNat - a.toNat % 2 ^ n.toNat := by
  have hfits : a.toNat / 2 ^ n.toNat * 2 ^ n.toNat < 2 ^ 256 := (Nat.div_mul_le_self _ _).trans_lt a.isLt
  rw [shl256_toNat, shr256_toNat, Nat.mod_eq_of_lt hfits, Nat.div_mul_self_eq_mod_sub_self]

/-! ### The obligations -/

/-- Settles O16: the limb case split is the 256-bit shift, whose value laws these are. -/
theorem shiftersMultiplyAndDivide : Obligations.ShiftersMultiplyAndDivide :=
  fun a n => ⟨shl256_toNat a n, shr256_toNat a n⟩

/-- Settles O17: the bits are those of the 256-bit shifts, and the round trips follow from the value laws. -/
theorem shifterLaws : Obligations.ShifterLaws :=
  fun a n => ⟨shl256_zero a, shr256_zero a, fun _ => shl256_getLsbD a n, shr256_getLsbD a n,
    shr256_shl256_toNat a n, shl256_shr256_toNat a n⟩

/-- Settles O18: 127 is the last count with a cross-limb term, and 255 shifts one limb by 127. -/
theorem shiftsAtTheLimbBoundary : Obligations.ShiftsAtTheLimbBoundary := by
  intro a
  refine ⟨shl256_128 a, shr256_128 a, shl256_of_lt a (by decide) (by decide),
    shr256_of_lt a (by decide) (by decide), ?_, ?_⟩
  · rw [← limb_shiftLeft_127]
    exact shl256_of_ge a (by decide)
  · rw [← limb_ushiftRight_127]
    exact shr256_of_ge a (by decide)

end Sys2Proof.Machine
end

section
/-! PROOFS. The obligations on the commands SHL and SHR (41_shift.md, R113, R115). -/

namespace Sys2Proof.Machine

/-! ### What each command does -/

theorem exec_shl_completes (a : SrcA) (n : Count) (s : State) : ∃ t, exec (.shl a n) s = .next t ∧
    t.acc = shl256 (opA a s) n ∧ CompletedFrom s t :=
  complete_completedFrom _ s

theorem exec_shr_completes (a : SrcA) (n : Count) (s : State) : ∃ t, exec (.shr a n) s = .next t ∧
    t.acc = shr256 (opA a s) n ∧ CompletedFrom s t :=
  complete_completedFrom _ s

/-- The largest count keeps only bit 0, at bit 255 (R113). -/
theorem shl256_255_toNat (a : Word) : (shl256 a 255#8).toNat = a.toNat % 2 * 2 ^ 255 := by
  simp only [shl256_toNat, BitVec.reduceToNat]
  omega

/-! ### The obligations -/

/-- Settles O33: the row is the table's, the effect is the left shifter's, and the example is the one bit of `ONE`
moved to the top, which reads no `PB`. -/
theorem shlCommand : Obligations.ShlCommand := by
  refine ⟨encodedByRow_tableRow .shl, fun a n s => ?_,
    fun a => ⟨shl256_zero a, shl256_128 a, shl256_255_toNat a⟩, fun n s => ?_, fun pb => ?_⟩
  · obtain ⟨t, ht, hacc, hfrom⟩ := exec_shl_completes a n s
    exact ⟨t, ht, hacc, by rw [hacc, shl256_toNat], hfrom⟩
  · obtain ⟨t, ht, hacc, -⟩ := exec_shl_completes .acc n s
    exact ⟨t, ht, hacc⟩
  · have hd : decode 0xFF03#16 = .legal (.shl .pa 255#8) := by decide
    have hone : shl256 ONE 255#8 = W 0x80000000000000000000000000000000#128 0#128 := by decide
    exact commandWrites_of_valueOf hd fun _ => (shl256_eq_value ONE 255#8).symm.trans hone

/-- Settles O34: the row is the table's, the effect is the right shifter's, and the example is a limb moved whole,
which reads no `PB`. -/
theorem shrCommand : Obligations.ShrCommand := by
  refine ⟨encodedByRow_tableRow .shr, fun a n s => ?_,
    fun a => ⟨shr256_zero a, shr256_128 a, shr256_toNat a 255#8⟩, by decide, fun pb => ?_⟩
  · obtain ⟨t, ht, hacc, hfrom⟩ := exec_shr_completes a n s
    exact ⟨t, ht, hacc, by rw [hacc, shr256_toNat], hfrom⟩
  · have hd : decode 0x8004#16 = .legal (.shr .pa 128#8) := by decide
    have hlimb : shr256 (W MAX_128 0#128) 128#8 = W 0#128 MAX_128 := by rw [shr256_128, hi_W]
    exact commandWrites_of_valueOf hd fun _ => (shr256_eq_value (W MAX_128 0#128) 128#8).symm.trans hlimb

end Sys2Proof.Machine
end

section
/-! PROOFS. The obligations on the multiplier (42_multiply.md, R130 to R137, R139, R140). -/

namespace Sys2Proof.Machine

/-! ### Bounds on halves and their products -/

theorem halfLimb_mul_le (x y : HalfLimb) : x.toNat * y.toNat ≤ (2 ^ 64 - 1) ^ 2 := by
  rw [sq]
  exact Nat.mul_le_mul (Nat.le_sub_one_of_lt x.isLt) (Nat.le_sub_one_of_lt y.isLt)

/-- A sum of halves has at most 65 bits (R133). -/
theorem halfSum_le (x : Limb) : (halfSum x).toNat ≤ 2 ^ 65 - 2 := by
  have hh := (limbHi x).isLt
  have hl := (limbLo x).isLt
  rw [halfSum_toNat]
  omega

theorem limbHi_le_one {x : Limb} (hx : x.toNat ≤ 2 ^ 65 - 2) : (limbHi x).toNat ≤ 1 := by
  rw [limbHi_toNat]
  omega

/-- A third invocation takes the fast path (R135). -/
theorem bothFit64_halfSum_halfSum (x y : Limb) : bothFit64 (halfSum (halfSum x)) (halfSum (halfSum y)) = true :=
  bothFit64_iff.mpr ⟨halfSum_halfSum_lt x, halfSum_halfSum_lt y⟩

/-! ### The two paths of `mul128` -/

theorem mul128_of_fit {x y : Limb} (h : bothFit64 x y = true) : mul128 x y = fastProduct x y := if_pos h

/-- On sums of halves, one level fewer gives the same product, since both are exact (R135). -/
theorem mul128At_one_halfSum (x y : Limb) :
    mul128At 1 (halfSum x) (halfSum y) = mul128 (halfSum x) (halfSum y) := by
  apply BitVec.eq_of_toNat_eq
  rw [mul128_toNat]
  exact mul128At_succ_toNat (fastProduct_toNat (halfSum_halfSum_lt x) (halfSum_halfSum_lt y))

/-- The general path calls `mul128` itself on the sums (R132). -/
theorem mul128_of_not_fit {x y : Limb} (h : ¬ bothFit64 x y = true) :
    mul128 x y = karatsuba x y (mul128 (halfSum x) (halfSum y)) := by
  rw [← mul128At_one_halfSum]
  exact if_neg h

/-! ### The intermediate values of the general path -/

/-- The product of the sums holds the two outer products and the cross products (R134). -/
theorem mid_toNat (x y : Limb) : (mul128 (halfSum x) (halfSum y)).toNat =
    (limbHi x).toNat * (limbHi y).toNat + (limbLo x).toNat * (limbLo y).toNat +
      ((limbHi x).toNat * (limbLo y).toNat + (limbLo x).toNat * (limbHi y).toNat) := by
  rw [mul128_toNat, halfSum_toNat, halfSum_toNat]
  ring

theorem mid_lt (x y : Limb) : (mul128 (halfSum x) (halfSum y)).toNat < 2 ^ 130 := by
  have hprod := Nat.mul_le_mul (halfSum_le x) (halfSum_le y)
  rw [mul128_toNat]
  omega

/-- The cross term is the sum of the cross products (R134). -/
theorem cross_toNat (x y : Limb) :
    (crossTerm (mul128 (halfSum x) (halfSum y)) (mul64 (limbLo x) (limbLo y)) (mul64 (limbHi x) (limbHi y))).toNat =
      (limbHi x).toNat * (limbLo y).toNat + (limbLo x).toNat * (limbHi y).toNat := by
  apply crossTerm_toNat
  rw [mid_toNat, mul64_toNat, mul64_toNat]
  omega

theorem cross_lt (x y : Limb) :
    (limbHi x).toNat * (limbLo y).toNat + (limbLo x).toNat * (limbHi y).toNat < 2 ^ 129 := by
  have hhl := halfLimb_mul_le (limbHi x) (limbLo y)
  have hlh := halfLimb_mul_le (limbLo x) (limbHi y)
  omega

/-! ### The counted multiplier -/

theorem countedMul128At_value (d : Nat) (x y : Limb) : (countedMul128At d x y).value = mul128At d x y := by
  induction d generalizing x y with
  | zero => rfl
  | succ d ih =>
    simp only [countedMul128At, mul128At, apply_ite Counted.value, countedKaratsuba, karatsuba, countedFast,
      fastProduct, countedMul64, ih]

theorem countedMul128_value (x y : Limb) : (countedMul128 x y).value = mul128 x y :=
  countedMul128At_value 2 x y

/-- A splitting level performs two native multiplications beside its recursive call (R136). -/
theorem countedMul128At_succ_natives (d : Nat) (x y : Limb) : (countedMul128At (d + 1) x y).natives =
    if bothFit64 x y then 1 else 2 + (countedMul128At d (halfSum x) (halfSum y)).natives := by
  rw [countedMul128At, apply_ite Counted.natives]
  rfl

theorem countedMul128_natives (x y : Limb) : (countedMul128 x y).natives =
    if bothFit64 x y then 1 else if bothFit64 (halfSum x) (halfSum y) then 3 else 5 := by
  have hbottom (x y : Limb) : (countedMul128At 0 x y).natives = 1 := rfl
  rw [countedMul128, countedMul128At_succ_natives, countedMul128At_succ_natives, hbottom, apply_ite (2 + ·)]

theorem countedMul128_natives_le (x y : Limb) : (countedMul128 x y).natives ≤ 5 := by
  rw [countedMul128_natives]
  split
  · decide
  · split <;> decide

theorem countedMul256_value (a b : Word) : (countedMul256 a b).value = mul256 a b := by
  simp only [countedMul256, mul256, countedMul128_value]

theorem countedMul256_natives (a b : Word) : (countedMul256 a b).natives =
    (countedMul128 (lo a) (lo b)).natives + (countedMul128 (lo a) (hi b)).natives +
      (countedMul128 (hi a) (lo b)).natives := rfl

/-- Three products of at most five (R139). -/
theorem countedMul256_natives_le (a b : Word) : (countedMul256 a b).natives ≤ 15 := by
  have hlow := countedMul128_natives_le (lo a) (lo b)
  have hcross1 := countedMul128_natives_le (lo a) (hi b)
  have hcross2 := countedMul128_natives_le (hi a) (lo b)
  rw [countedMul256_natives]
  omega

/-! ### The 256-bit multiplier -/

theorem mul256_toNat (a b : Word) : (mul256 a b).toNat = a.toNat * b.toNat % 2 ^ 256 := by
  rw [mul256_eq_mul, BitVec.toNat_mul]

theorem ONE_eq_one : ONE = 1#256 := by decide

theorem mul256_MAX_MAX : mul256 MAX MAX = ONE := by
  rw [mul256_eq_mul]
  decide

/-- `(2^128 + 1)^2`, less its bit at `2^256` (R140). -/
theorem mul256_W_one_one : mul256 (W 1#128 1#128) (W 1#128 1#128) = W 2#128 1#128 := by
  rw [mul256_eq_mul]
  decide

/-! ### The obligations -/

/-- Settles O19: each factor is at most `2^64 - 1`. -/
theorem nativeProductIsExact : Obligations.NativeProductIsExact :=
  fun x y => ⟨mul64_toNat x y, halfLimb_mul_le x y, by decide⟩

/-- Settles O20: the recursive call on the sums, one level short of `mul128`, is `mul128`, since both are exact. -/
theorem karatsubaRecursionHolds : Obligations.KaratsubaRecursionHolds := by
  intro x y
  split
  next hfit => exact mul128_of_fit (bothFit64_iff.mpr hfit)
  next hfit => exact mul128_of_not_fit (mt bothFit64_iff.mp hfit)

/-- Settles O21: the product of the sums holds both outer products, so what is left is the cross products, and these
have room at their offset. -/
theorem mul128IsExact : Obligations.Mul128IsExact := by
  intro x y xh xl yh yl mid cross
  have hmid : mid.toNat = xh * yh + xl * yl + (xh * yl + xl * yh) := mid_toNat x y
  have hcross : cross.toNat = xh * yl + xl * yh := cross_toNat x y
  have hcrossLt : cross.toNat < 2 ^ 129 := hcross ▸ cross_lt x y
  have hshift : (shl256 cross 64#8).toNat = cross.toNat * 2 ^ 64 := by
    simp only [shl256_toNat, BitVec.reduceToNat]
    omega
  have hsum : xh * yh * 2 ^ 128 + xl * yl + cross.toNat * 2 ^ 64 = x.toNat * y.toNat := by
    rw [hcross, mul_eq_of_halves]
  have hprod : x.toNat * y.toNat < 2 ^ 128 * 2 ^ 128 := Nat.mul_lt_mul'' x.isLt y.isLt
  refine ⟨mul128_toNat _ _, hmid, mid_lt x y, by omega, hcross, hcrossLt, ?_, hshift, by omega, hsum, by omega,
    mul128_toNat x y⟩
  intro hx hy
  subst hx hy
  decide

/-- Settles O22: two halves of 64 bits make at most `2^65 - 2`, whose own halves are a bit and 64 bits. -/
theorem thirdInvocationIsFast : Obligations.ThirdInvocationIsFast :=
  fun x y => ⟨halfSum_le x, halfSum_toNat x, limbHi_le_one, halfSum_halfSum_lt x, bothFit64_halfSum_halfSum x y⟩

/-- Settles O23: a splitting level costs two native multiplications and a fast path one, over at most two levels. -/
theorem nativeMultiplicationCounts : Obligations.NativeMultiplicationCounts := by
  refine ⟨fun x y => ⟨rfl, rfl⟩, fun x y => ⟨countedMul128_value x y, countedMul128_natives x y⟩,
    fun a b => ⟨countedMul256_value a b, countedMul256_natives a b, countedMul256_natives_le a b⟩, by decide⟩

/-- Settles O24: the adder is associative, and the product of the higher limbs is a multiple of `2^256`. -/
theorem mul256IsProductModulo : Obligations.Mul256IsProductModulo := by
  refine fun a b => ⟨rfl, ?_, mul256_toNat a b⟩
  simp only [mul256, add256_eq_add, BitVec.add_assoc]

/-- Settles O25: the multiplier is `BitVec` multiplication, whose laws these are. -/
theorem multiplierLaws : Obligations.MultiplierLaws := by
  refine ⟨fun a b => ?_, fun a b c => ?_, fun a => ?_, fun a => ?_, mul256_MAX_MAX, mul256_W_one_one⟩
  · rw [mul256_eq_mul, mul256_eq_mul, BitVec.mul_comm]
  · simp only [mul256_eq_mul, BitVec.mul_assoc]
  · rw [mul256_eq_mul, ONE_eq_one, BitVec.mul_one]
  · rw [mul256_eq_mul, ZERO_eq_zero, BitVec.mul_zero]

end Sys2Proof.Machine
end

section
/-! PROOFS. The obligation on the command MUL (42_multiply.md, R138). -/

namespace Sys2Proof.Machine

theorem exec_mul_completes (a : SrcA) (b : SrcB) (s : State) : ∃ t, exec (.mul a b) s = .next t ∧
    t.acc = mul256 (opA a s) (opB b s) ∧ CompletedFrom s t :=
  complete_completedFrom _ s

/-- Settles O35: the row is the table's, the effect is the multiplier's, and the example is `W(1,1)` squared. -/
theorem mulCommand : Obligations.MulCommand := by
  refine ⟨encodedByRow_tableRow .mul, fun a b s => ?_, ⟨mul256_MAX_MAX, mul256_W_one_one, by decide, by decide,
    by decide, fun s => ?_⟩, ?_⟩
  · obtain ⟨t, ht, hacc, hfrom⟩ := exec_mul_completes a b s
    exact ⟨t, ht, hacc, by rw [hacc, mul256_toNat], hfrom⟩
  · obtain ⟨t, ht, hacc, -⟩ := exec_mul_completes .acc .acc s
    refine ⟨t, ht, ?_⟩
    rw [hacc, mul256_toNat, opA, opB, sq]
  · have hd : decode 0x0005#16 = .legal (.mul .pa .pb) := by decide
    exact commandWrites_of_valueOf hd fun _ =>
      (mul256_eq_value (W 1#128 1#128) (W 1#128 1#128)).symm.trans mul256_W_one_one

end Sys2Proof.Machine
end

section
/-! PROOFS. The obligations on the comparator (43_compare.md, R171, R173). -/

namespace Sys2Proof.Machine

/-! ### What the comparator answers -/

/-- The bit of a proposition is set exactly when it holds. -/
theorem ite_bit_eq_one_iff {p : Prop} [Decidable p] : (if p then 1#1 else 0#1) = 1#1 ↔ p := by
  split
  next hp => exact iff_of_true rfl hp
  next hp => exact iff_of_false (by decide) hp

theorem eq256_eq_one_iff {a b : Word} : eq256 a b = 1#1 ↔ a = b := by
  rw [eq256_eq_ite, ite_bit_eq_one_iff, BitVec.toNat_inj]

theorem ltu256_eq_one_iff {a b : Word} : ltu256 a b = 1#1 ↔ a.toNat < b.toNat := by
  rw [ltu256_eq_ite, ite_bit_eq_one_iff]

theorem eq256_of_ne {a b : Word} (h : a ≠ b) : eq256 a b = 0#1 := by
  rw [eq256_eq_ite, if_neg (mt BitVec.eq_of_toNat_eq h)]

theorem ltu256_self (a : Word) : ltu256 a a = 0#1 := by
  rw [ltu256_eq_ite, if_neg (lt_irrefl _)]

/-- The unsigned order of values is the lexicographic order of their limbs (R171). -/
theorem toNat_lt_iff_limbs {a b : Word} :
    a.toNat < b.toNat ↔ (hi a).toNat < (hi b).toNat ∨ (hi a = hi b ∧ (lo a).toNat < (lo b).toNat) := by
  have hla := (lo a).isLt
  have hlb := (lo b).isLt
  rw [toNat_eq_limbs a, toNat_eq_limbs b, ← BitVec.toNat_inj]
  omega

/-! ### Laws of the order -/

/-- Two values are in exactly one of the three relations (R173). -/
theorem ltu256_eq256_trichotomy (a b : Word) :
    (ltu256 a b).toNat + (eq256 a b).toNat + (ltu256 b a).toNat = 1 := by
  simp only [ltu256_eq_ite, eq256_eq_ite]
  rcases lt_trichotomy a.toNat b.toNat with hlt | heq | hgt
  · simp [hlt, hlt.ne, hlt.not_gt]
  · simp [heq]
  · simp [hgt, hgt.ne', hgt.not_gt]

theorem ltu256_ZERO_left_iff {a : Word} : ltu256 ZERO a = 1#1 ↔ a ≠ ZERO := by
  rw [ltu256_eq_one_iff, ne_eq, ← BitVec.toNat_inj, ZERO_toNat, Nat.pos_iff_ne_zero]

theorem ltu256_MAX_right_iff {a : Word} : ltu256 a MAX = 1#1 ↔ a ≠ MAX := by
  have ha := a.isLt
  rw [ltu256_eq_one_iff, ne_eq, ← BitVec.toNat_inj, MAX_toNat]
  omega

/-- A sum is below its operand exactly when the addition wrapped (R173). -/
theorem ltu256_add256_eq_carryN (a b : Word) : ltu256 (add256 a b) a = carryN 256 a b 0#256 := by
  have ha := a.isLt
  have hb := b.isLt
  have hwrap : (add256 a b).toNat < a.toNat ↔ 2 ^ 256 ≤ a.toNat + b.toNat + (0#256).toNat := by
    rw [add256_toNat, BitVec.toNat_zero]
    omega
  rw [ltu256_eq_ite, carryN]
  exact if_congr hwrap rfl rfl

/-! ### The obligations -/

/-- Settles O26: the values' equality and order are those of their limbs. -/
theorem comparatorComparesValues : Obligations.ComparatorComparesValues :=
  fun _ _ => ⟨eq256_eq_one_iff.trans eq_iff_limbs, ltu256_eq_one_iff.trans toNat_lt_iff_limbs, eq256_eq_one_iff,
    ltu256_eq_one_iff⟩

/-- Settles O27: the laws are those of the order on numbers, and the borrow is that order by definition. -/
theorem comparatorLaws : Obligations.ComparatorLaws := by
  refine ⟨ltu256_eq256_trichotomy, ltu256_self, fun a b c hab hbc => ?_, fun a => ltu256_ZERO_left_iff,
    fun a => ltu256_MAX_right_iff, ltu256_add256_eq_carryN, ltu256_eq_ite⟩
  rw [ltu256_eq_one_iff] at hab hbc ⊢
  exact hab.trans hbc

end Sys2Proof.Machine
end

section
/-! PROOFS. The obligations on the commands EQ and LTU (43_compare.md, R170, R172, R174). -/

namespace Sys2Proof.Machine

/-! ### What each command does -/

theorem exec_eq_completes (a : SrcA) (b : SrcB) (s : State) : ∃ t, exec (.eq a b) s = .next t ∧
    t.acc = (eq256 (opA a s) (opB b s)).setWidth 256 ∧ CompletedFrom s t :=
  complete_completedFrom _ s

theorem exec_ltu_completes (a : SrcA) (b : SrcB) (s : State) : ∃ t, exec (.ltu a b) s = .next t ∧
    t.acc = (ltu256 (opA a s) (opB b s)).setWidth 256 ∧ CompletedFrom s t :=
  complete_completedFrom _ s

/-- The result form of `EQ` (R174). -/
theorem eq256_setWidth (x y : Word) : (eq256 x y).setWidth 256 = if x = y then ONE else ZERO := by
  simp only [eq256_eq_value, BitVec.toNat_inj, ONE_eq_one, ZERO_eq_zero]

/-- The result form of `LTU` (R174). -/
theorem ltu256_setWidth (x y : Word) :
    (ltu256 x y).setWidth 256 = if x.toNat < y.toNat then ONE else ZERO := by
  rw [ltu256_eq_value, ONE_eq_one, ZERO_eq_zero]

/-- Inverting bit 0 gives another value (R170). -/
theorem ne_xor_one (a : Word) : a ≠ a ^^^ 1#256 := by
  intro h
  have hbit := congrArg (BitVec.getLsbD · 0) h
  simp at hbit

/-! ### The obligations -/

/-- Settles O36: the row is the table's, the effect is the comparator's, and the example compares `MAX` with
itself. -/
theorem eqCommand : Obligations.EqCommand := by
  refine ⟨encodedByRow_tableRow .eq, fun a b s => ?_, fun s => ?_, fun a => eq256_of_ne (ne_xor_one a),
    by decide, ?_⟩
  · obtain ⟨t, ht, hacc, hfrom⟩ := exec_eq_completes a b s
    exact ⟨t, ht, hacc, hacc.trans (eq256_setWidth _ _), hfrom⟩
  · obtain ⟨t, ht, hacc, -⟩ := exec_eq_completes .acc .acc s
    exact ⟨t, ht, hacc.trans ((eq256_setWidth s.acc s.acc).trans (if_pos rfl))⟩
  · have hd : decode 0x0006#16 = .legal (.eq .pa .pb) := by decide
    exact commandWrites_of_valueOf hd fun _ => (eq256_eq_value MAX MAX).symm.trans (by decide)

/-- Settles O37: the row is the table's, the effect is the comparator's, and the example compares `ZERO` with
`MAX`. -/
theorem ltuCommand : Obligations.LtuCommand := by
  refine ⟨encodedByRow_tableRow .ltu, fun a b s => ?_, fun s => ?_, by decide, ?_⟩
  · obtain ⟨t, ht, hacc, hfrom⟩ := exec_ltu_completes a b s
    exact ⟨t, ht, hacc, hacc.trans (ltu256_setWidth _ _), hfrom⟩
  · obtain ⟨t, ht, hacc, -⟩ := exec_ltu_completes .acc .acc s
    exact ⟨t, ht, hacc.trans ((ltu256_setWidth s.acc s.acc).trans (if_neg (lt_irrefl _)))⟩
  · have hd : decode 0x0007#16 = .legal (.ltu .pa .pb) := by decide
    exact commandWrites_of_valueOf hd fun _ => (ltu256_eq_value ZERO MAX).symm.trans (by decide)

end Sys2Proof.Machine
end

section
/-! PROOFS. The obligations on illegal commands, resets and the statuses of responses (60_exceptions.md). -/

namespace Sys2Proof.Machine

/-! ### The code of an illegal word -/

/-- The opcode alone fixes the code of an illegal word (R64, R182). -/
theorem decode_illegal_code {w : CmdWord} {code : Status} (h : decode w = .illegal code) :
    code = if 8 ≤ w.toNat % 16 then Status.illegalOpcode else Status.reservedField := by
  by_cases hres : 8 ≤ w.toNat % 16
  · rw [decode_of_reserved (opOfCode_cmdOp_eq_none_iff.mpr hres)] at h
    rw [if_pos hres, Decoded.illegal.inj h]
  · obtain ⟨op, hop⟩ := exists_op_of_lt (not_le.mp hres)
    rw [decode_of_op hop] at h
    rw [if_neg hres]
    split at h
    next => cases h
    next => rw [Decoded.illegal.inj h]

/-- Settles O7: the code follows from the opcode, and the decoder runs on the rule's two examples. -/
theorem reservedOpcodeReportedFirst : Obligations.ReservedOpcodeReportedFirst :=
  ⟨fun _ _ => decode_illegal_code, by decide, by decide⟩

/-! ### Steps -/

/-- Settles O41: the illegal command leaves `ACC` and the events after it, and all that the next event does to `ACC`
and the outputs depends on these. -/
theorem illegalCommandOnlyAnswers : Obligations.IllegalCommandOnlyAnswers := by
  intro s c rest code hin hd
  have hstep := step_of_illegal hin hd
  refine ⟨hstep, fun d rest' hrest => ⟨_, _, step_cons hrest,
    (core_run_succ 1 hstep).trans ((core_run_succ 0 (step_cons hrest)).trans (core_run_zero _)),
    takeEvent_acc_congr (.command d) rfl, takeEvent_outputs_congr (.command d) rfl, ?_⟩⟩
  rw [takeEvent_inbox, takeEvent_inbox]

/-- Settles O45: of the five ways to step, the idle step and the illegal command keep `ACC`. -/
theorem onlyLegalCommandsAndResetWriteAcc : Obligations.OnlyLegalCommandsAndResetWriteAcc := by
  intro s t hstep hne
  obtain ⟨-, hidle⟩ | ⟨rest, hin, -⟩ | ⟨c, rest, hin, -⟩ | ⟨c, rest, i, hin, hd, -⟩ | ⟨c, rest, code, -, -, hraise⟩ :=
    step_cases s
  · obtain rfl := Host.Outcome.next.inj (hidle.symm.trans hstep)
    exact absurd rfl hne
  · exact .inr (.inl ⟨rest, hin⟩)
  · exact .inr (.inr ⟨c, rest, hin⟩)
  · exact .inl ⟨c, rest, i, hin, hd⟩
  · obtain ⟨hacc, -⟩ := raiseIllegal_next (hraise.symm.trans hstep)
    exact absurd hacc hne

/-- Settles O42: every command completes, and a completed command answers `(ACC, 00)`. -/
theorem legalCommandsRaiseNothing : Obligations.LegalCommandsRaiseNothing := by
  intro i s
  obtain ⟨t, ht, -, hout, -⟩ := datapathMeetsTheValueLevel i s
  exact ⟨t, ht, hout⟩

/-- Settles O48: with no event to take, the step is the idle one. -/
theorem idleBlockHoldsItsState : Obligations.IdleBlockHoldsItsState := fun _ => step_nil

/-! ### Statuses of a list of answers -/

/-- A command is answered with status `00` exactly when its word is legal (R180). -/
theorem answer_status_ok_iff {acc : Word} {c : Command} :
    (answer acc c).status = 0b00#2 ↔ ∃ i, decode c.cmd = .legal i := by
  cases hd : decode c.cmd with
  | legal i => simp [answer_of_legal acc hd, Status.ok]
  | illegal code => simp [answer_of_illegal acc hd, decode_illegal_ne_ok hd]

/-- All answers have status `00` exactly when every word is legal, whatever `ACC` the commands start from (R196). -/
theorem allOk_answers_iff {acc : Word} {cs : List Command} :
    AllOk (answers acc cs) ↔ ∀ c ∈ cs, ∃ i, decode c.cmd = .legal i := by
  induction cs generalizing acc with
  | nil => simp [answers, AllOk]
  | cons c cs ih => rw [answers, AllOk, List.forall_mem_cons, List.forall_mem_cons, answer_status_ok_iff, ← ih, AllOk]

/-- Settles O56: one answer per command, with status `00` exactly when the word is legal. -/
theorem allStatusesOkIffAllLegal : Obligations.AllStatusesOkIffAllLegal :=
  fun acc cs => ⟨answers_length acc cs, allOk_answers_iff⟩

end Sys2Proof.Machine
end

section
/-! PROOFS. The obligation on reset events (70_reset_and_hazards.md). -/

namespace Sys2Proof.Machine

/-- `resetBlock` with the value of `ZERO` written out (R28, R200): `inbox`, `ports` and `log` are kept. -/
theorem resetBlock_eq (s : State) : resetBlock s = { s with acc := 0#256, outputs := none } := by
  have hzero : ZERO = 0#256 := BitVec.eq_of_toNat_eq ZERO_toNat
  rw [resetBlock, hzero]

/-- Settles O46: the step on either reset event is `resetBlock`, after the cut-off command has been put on the ports. -/
theorem resetClearsAccAndDiscardsCommand : Obligations.ResetClearsAccAndDiscardsCommand := by
  intro s rest
  refine ⟨fun hin => ?_, fun c hin => ?_⟩
  · rw [step_cons hin, takeEvent, resetBlock_eq]
  · rw [step_cons hin, takeEvent, resetBlock_eq, accept]

end Sys2Proof.Machine
end
